-- ==== Sys2Proof/Word.lean ====
section
/-! DEFINITION. The fixed widths of the block (00_scope.md R14): a byte has 8 bits, a port register, a generator
word and the accumulator have 32. All values are unsigned (R15). -/

namespace Sys2Proof

/-- A passphrase, seed or data byte (R14). -/
abbrev Byte := BitVec 8

/-- A host register, a generator word or the accumulator (R14). -/
abbrev Word := BitVec 32

end Sys2Proof
end

