-- ==== Sys2Proof/Syntax.lean ====
section
/-! DEFINITION. The commands (30_encoding.md R63), the fields of the one format C (R61), the host registers
(10_state.md R20), the names of the phases and of the error codes, the commands that can be pending, and the statements of a host program (30_encoding.md R70 to R78). -/

namespace Sys2Proof

/-- The six commands, one constructor per row of spec/opcode_table.json. The operand is the DATA byte (R65). -/
inductive Instr where
  /-- KEY_PUSH b: append b to the passphrase (R80). -/
  | keyPush (b : Byte)
  /-- EXPAND: run the key schedule (R81). -/
  | expand
  /-- SEED: seed the Generator Core from the seed buffer (R95). -/
  | seed
  /-- PRIME: warm up the generator and the accumulator (R96). -/
  | prime
  /-- XFORM b: encrypt or decrypt one byte (R99). -/
  | xform (b : Byte)
  /-- SRST: soft reset (R107). -/
  | srst
  deriving DecidableEq, Repr

/-- The fields of a command word (R61, R62). -/
structure Fields where
  opcode : BitVec 8
  rsv : BitVec 16
  data : BitVec 8
  deriving DecidableEq, Repr

/-- Why a word is ILLEGAL (R66). All three raise the same fault code (R67); the reason is recorded nowhere (R110). -/
inductive Illegal where
  /-- RSV is not zero (R64). -/
  | reservedNonzero
  /-- DATA is not zero and OPCODE is neither KEY_PUSH nor XFORM (R65). -/
  | dataNonzero
  /-- OPCODE is in no row of the map (R63, R68). -/
  | opcodeUnassigned
  deriving DecidableEq, Repr

/-- What a 32-bit word decodes to (R66). -/
inductive Decoded where
  | command (i : Instr)
  | illegal (why : Illegal)
  deriving DecidableEq, Repr

/-- The eight host registers (10_state.md R20). -/
inductive HostReg where
  | id
  | cfg0
  | cfg1
  | cmd
  | status
  | dout
  | keylen
  | reserved7
  deriving DecidableEq, Repr

/-- One statement of a host program (R70). A literal is a natural number until `Stmt.wellFormed` has checked its range:
a literal out of range is an assembly error, never a wrapped value (R72). A string is the list of its character codes
(R73). -/
inductive Stmt where
  /-- `WR <reg>, <imm32>` (R71). -/
  | wr (r : HostReg) (imm : Nat)
  /-- `RD <reg>` (R71). -/
  | rd (r : HostReg)
  /-- A command mnemonic (R72). -/
  | keyPush (b : Nat)
  | expand
  | seed
  | prime
  | xform (b : Nat)
  | srst
  /-- `KEY "<string>"` (R74). -/
  | key (codes : List Nat)
  /-- `SETUP` (R75). -/
  | setup
  /-- `WAIT` (R76). -/
  | wait
  /-- `ENC <byte>` (R77). -/
  | enc (b : Nat)
  /-- `DEC <byte>` (R77). -/
  | dec (b : Nat)
  /-- `XSTR "<string>"` (R78). -/
  | xstr (codes : List Nat)
  deriving DecidableEq, Repr

namespace Machine

/-- PHASE (10_state.md R32). -/
inductive Phase where
  | idle
  | expanded
  | seeded
  | primed
  | streaming
  | fault
  deriving DecidableEq, Repr, Inhabited

/-- The error codes of 60_exceptions.md R109; `none` is 0x00. The codes 0x06 to 0xFF are never written. -/
inductive ErrCode where
  | none
  | illegalCmd
  | order
  | keyEmpty
  | keyOverflow
  | cmdWhileBusy
  deriving DecidableEq, Repr, Inhabited

/-- A command that can wait for its completion step, with its DATA byte (10_state.md R38). SRST takes effect at its write and never
waits (R107). -/
inductive Pending where
  | keyPush (b : Byte)
  | expand
  | seed
  | prime
  | xform (b : Byte)
  deriving DecidableEq, Repr, Inhabited

end Machine

end Sys2Proof
end

