-- ==== Sys2Proof/Config.lean ====
section
/-! DEFINITION. The implementation parameters (00_scope.md R7 to R13, R18; 20_memory.md R46; 70_reset_and_hazards.md
R133; 60_exceptions.md R123). They are constants of one block instance, never state. The instance is OPAQUE: every claim holds for every
value the spec allows (log entry 1). -/

namespace Sys2Proof

/-- SEED_ORDER (R13): which byte of four is the least significant byte of a seed word. -/
inductive SeedOrder where
  | le
  | be
  deriving DecidableEq, Repr, Inhabited

/-- BRIDGE_SUBWORD (R46): what the platform's bus bridge does with an access that is not one aligned 32-bit word. -/
inductive BridgeSubword where
  /-- The one safe instance: the access faults on the bus and the block sees nothing. -/
  | busFault
  /-- Any other bridge: the platform's own, of which the spec makes no claim (93_implementation_defined.md U12). -/
  | platformDefined
  deriving DecidableEq, Repr, Inhabited

/-- GenState (R12), the Generator Core's state. The spec leaves the type open; the model carries it as a word array
and an index, plain data in which every countable state set can be coded (log entry 3, DESIGN CHOICE). Only
`genSeed` and `genNext` give it a meaning. -/
structure GenState where
  words : List Word
  index : Nat
  deriving DecidableEq, Repr, Inhabited

/-- What the block's state is after power has been lost and has come back, before the hard reset that must follow
(60_exceptions.md R123): the spec gives no value to any of it. -/
structure PowerUp where
  phase : Machine.Phase
  errcode : Machine.ErrCode
  pend : Option Machine.Pending
  key : List Byte
  sbByte : Nat → Byte
  gen : Option GenState
  acc : Word
  dout : Byte
  deriving Inhabited

/-- One block instance's parameters. A field `xPred` holds the parameter minus one, so that every value of the type
is in the range the spec gives and every value of the range is a value of the type. -/
structure Params where
  /-- NW - 1, where W = 4 * NW and 4 <= W <= 65532 (R7). -/
  seedWordsPred : Fin 16383
  /-- D - 1, where 1 <= D <= 255 (R8). -/
  digestLenPred : Fin 255
  /-- N_PRIME - 1, where 1 <= N_PRIME <= 2^32 - 1 (R9). -/
  nPrimePred : Fin 4294967295
  /-- KEY_MAX - 1, where 1 <= KEY_MAX <= 2^32 - 1 (R10). -/
  keyMaxPred : Fin 4294967295
  /-- SEED_ORDER (R13). -/
  seedOrder : SeedOrder
  /-- Byte i of Digest(x), for i < D (R11). -/
  digestByte : List Byte → Nat → Byte
  /-- GenSeed (R12), applied to NW words. -/
  genSeed : List Word → GenState
  /-- GenNext (R12): the word returned and the advanced state. -/
  genNext : GenState → Word × GenState
  /-- FREE VALUE (R133): how many host accesses come between the issue of the n-th accepted command and its
  completion. Finite, which is the weak fairness of R133 (log entry 4). -/
  busyLength : Nat → Nat
  /-- FREE VALUE (60_exceptions.md R123): what the n-th loss of power leaves in the block's state (log entry 10). -/
  powerUp : Nat → PowerUp
  /-- KSG_BASE (R46): the byte address of register 0 where the port is mapped on a bus. -/
  ksgBase : Nat
  /-- BRIDGE_SUBWORD (R46). -/
  bridgeSubword : BridgeSubword
  deriving Inhabited

/-- NW = W / 4, the number of seed words (R7). -/
def Params.seedWords (c : Params) : Nat := c.seedWordsPred.val + 1

/-- W, the seed width in bytes (R7). -/
def Params.seedWidth (c : Params) : Nat := 4 * c.seedWords

/-- D, the digest length in bytes (R8). -/
def Params.digestLen (c : Params) : Nat := c.digestLenPred.val + 1

/-- N_PRIME, the number of warm-up rounds (R9). -/
def Params.nPrime (c : Params) : Nat := c.nPrimePred.val + 1

/-- KEY_MAX, the largest passphrase length (R10). -/
def Params.keyMax (c : Params) : Nat := c.keyMaxPred.val + 1

/-- The default instance around given collaborators: W = 2496, D = 64, N_PRIME = 10000, KEY_MAX = 2^32 - 1, LE (R7 to
R10, R13). -/
def Params.defaults (c : Params) : Params :=
  { c with
    seedWordsPred := 623
    digestLenPred := 63
    nPrimePred := 9999
    keyMaxPred := 4294967294
    seedOrder := .le }

/-- The parameters of this block instance: uninterpreted (R18, log entry 1). -/
opaque Config.params : Params

end Sys2Proof
end

