-- ==== Sys2Proof/Machine/State.lean ====
section
/-! DEFINITION. The state of the block (10_state.md R32 to R38), the inputs it receives and the observation it leaves
(20_memory.md R53, 70_reset_and_hazards.md R124, R134), the reasons a step can stop, and the state after reset (R41). -/

namespace Sys2Proof.Machine

/-- The reset input and the power of the block (R124, R123). -/
inductive Line where
  /-- Powered, reset released: the block works. -/
  | running
  /-- Reset asserted: no host access is accepted (R124). -/
  | inReset
  /-- Power has been lost and no hard reset has come since (R123). -/
  | unpowered
  deriving DecidableEq, Repr

/-- What reaches the block from outside, in order of arrival (R53). -/
inductive HostInput where
  /-- A read of a register (R45). -/
  | read (r : HostReg)
  /-- A write of a register (R45). -/
  | write (r : HostReg) (w : Word)
  /-- The host's polling loop: read STATUS until BUSY is 0 (30_encoding.md R76). -/
  | wait
  /-- A read of `bytes` bytes at a byte address of the bus the port is mapped on (R46). -/
  | busRead (addr bytes : Nat)
  /-- A write of `bytes` bytes at a byte address of that bus (R46). -/
  | busWrite (addr bytes : Nat) (w : Word)
  /-- The reset input is asserted (R124). -/
  | resetAssert
  /-- The reset input is released (R124). -/
  | resetRelease
  /-- Power is lost and comes back (R123). -/
  | powerLoss
  deriving DecidableEq, Repr

/-- One entry of the session's observation (R134). -/
inductive Observation where
  /-- A read returned this value. -/
  | value (r : HostReg) (v : Word)
  /-- The access faulted on the bus and the block saw nothing (R46). -/
  | busFault
  /-- The access came while reset was asserted and was not accepted (R124). -/
  | notAccepted
  deriving DecidableEq, Repr

/-- Bytes by index: rising indices, and no entry equal to what an unlisted index reads as (`Memory.wf`). -/
abbrev Memory := List Host.Cell

/-- What an unlisted index of the seed buffer reads as: its reset contents (R41). -/
def blankByte : Byte := 0x00

/-- The state of the machine. -/
structure State where
  /-- PHASE, shown by STATUS.STATE and STATUS.FAULT (R32, R25). -/
  phase : Phase
  /-- STATUS.ERRCODE (R28). -/
  errcode : ErrCode
  /-- PEND, shown by STATUS.BUSY (R38). -/
  pend : Option Pending
  /-- KEY, the passphrase; its length is KEYLEN (R33, R30). -/
  key : List Byte
  /-- SB, the seed buffer (R34). -/
  sb : Memory
  /-- GEN: `none` is the spec's `unseeded` (R36). -/
  gen : Option GenState
  /-- ACC, the accumulator (R37). -/
  acc : Word
  /-- DOUT (R29). -/
  dout : Word
  /-- The reset input and the power (R124, R123). -/
  line : Line
  /-- The model's own: what the outside still sends, first to arrive first (R53; log entry 6). -/
  input : List HostInput
  /-- The model's own: the session's observation so far, oldest first (R134; log entry 6). -/
  observed : List Observation
  /-- The model's own: host accesses still to come before the pending command completes (R133; log entry 4). -/
  busyLeft : Nat
  /-- The model's own: how many commands have been accepted; `Params.busyLength` is applied to it (log entry 4). -/
  accepted : Nat
  /-- The model's own: how often power has been lost; `Params.powerUp` is applied to it (log entry 10). -/
  powerLosses : Nat
  deriving DecidableEq, Repr

/-- Reasons the machine stops. The block's own faults (R109) are no stops: fault entry gives a next state (R114). -/
inductive Fault where
  /-- MemRead or MemWrite outside SB[0..W). Raised by the key schedule's completion, where no run gets to (R87). Safe:
  R50 forbids giving such a call a value. -/
  | seedBufferBounds
  /-- GenNext on an unseeded generator. Raised by PRIME's and XFORM's completion in states no run reaches (R43). Safe:
  R43 forbids inventing a value. -/
  | generatorUnseeded
  /-- A bus access outside the block's eight registers. Raised by the bus bridge (R46). Safe: no such address is the
  block's. -/
  | busAddressUnmapped
  deriving DecidableEq, Repr

/-- Reasons the model gives no meaning. -/
inductive Refusal where
  /-- The instruction is not modelled. No arm of this model answers it. Safe. -/
  | notModelled (mnemonic : String)
  /-- A narrow, wide or misaligned bus access on a platform whose bridge is not the safe instance of R46. Raised by the
  bus bridge. Safe: the spec makes no claim of it (93_implementation_defined.md U12). -/
  | bridgeSubword
  /-- A host access after a loss of power and before the hard reset that is then required (R123). Raised at the port.
  Safe: the spec gives the block no state there. -/
  | noResetSincePowerUp
  deriving DecidableEq, Repr

/-- Every piece of state at its reset value (10_state.md R41, 70_reset_and_hazards.md R124), reset released; the
model's own fields empty or zero (log entries 4, 6 and 10). -/
def State.reset : State where
  phase := .idle
  errcode := .none
  pend := .none
  key := []
  sb := []
  gen := .none
  acc := 0x00000001
  dout := 0x00000000
  line := .running
  input := []
  observed := []
  busyLeft := 0
  accepted := 0
  powerLosses := 0

end Sys2Proof.Machine
end

