-- ==== Sys2Proof/Machine/Ops.lean ====
section
/-! DEFINITION. The named operations over the block's state: the seed buffer's primitives (20_memory.md R50), the
passphrase's (R51), the digest (R59), reset (10_state.md R41), fault entry (60_exceptions.md R114), and the issue
procedure every command shares (42_control.md R105). -/

namespace Sys2Proof.Machine

/-- The byte at an index; an index not listed reads as its reset contents. -/
def Memory.read : Memory → Nat → Byte
  | [], _ => blankByte
  | (k, b) :: rest, a => if k = a then b else Memory.read rest a

/-- Write one byte, keeping the canonical form: a byte equal to what an unlisted index reads as is not listed. -/
def Memory.write : Memory → Nat → Byte → Memory
  | [], a, v => if v = blankByte then [] else [(a, v)]
  | (k, b) :: rest, a, v =>
    if a < k then if v = blankByte then (k, b) :: rest else (a, v) :: (k, b) :: rest
    else if k = a then if v = blankByte then rest else (a, v) :: rest
    else (k, b) :: Memory.write rest a v

/-- The canonical form: indices strictly rising, no entry equal to what an unlisted index reads as. -/
abbrev Memory.wf (m : Memory) : Prop :=
  m.Pairwise (fun x y => x.1 < y.1) ∧ ∀ x ∈ m, x.2 ≠ blankByte

/-- The `n` bytes from index `a` on. -/
def Memory.readBytes (m : Memory) (a : Nat) : Nat → List Byte
  | 0 => []
  | n + 1 => m.read a :: Memory.readBytes m (a + 1) n

/-- Write the bytes of a sequence from index `a` on. -/
def Memory.writeBytes (m : Memory) (a : Nat) : List Byte → Memory
  | [] => m
  | v :: vs => Memory.writeBytes (m.write a v) (a + 1) vs

/-- MemRead(SB, a, n) (R50). `none` is a call outside SB, which gets no value. -/
def memRead (c : Params) (m : Memory) (a n : Nat) : Option (List Byte) :=
  if a + n ≤ c.seedWidth then some (m.readBytes a n) else none

/-- MemWrite(SB, a, v) (R50). `none` is a call outside SB, which gets no value. -/
def memWrite (c : Params) (m : Memory) (a : Nat) (v : List Byte) : Option Memory :=
  if a + v.length ≤ c.seedWidth then some (m.writeBytes a v) else none

/-- Digest(x), exactly D bytes (00_scope.md R11, 20_memory.md R59). -/
def digest (c : Params) (x : List Byte) : List Byte :=
  (List.range c.digestLen).map (c.digestByte x)

/-- KeyAppend(b) (20_memory.md R51). -/
def keyAppend (b : Byte) (s : State) : State :=
  { s with key := s.key ++ [b] }

/-- Every piece of the block's state at its reset value (10_state.md R41): what SRST does (42_control.md R107) and what
a hard reset leaves (70_reset_and_hazards.md R124). What the outside still sends, the observation, the reset line and
the model's counters are no state of the block's and stay (log entries 4, 8 and 10). -/
def resetBlock (s : State) : State :=
  { State.reset with line := s.line, input := s.input, observed := s.observed, accepted := s.accepted,
                     powerLosses := s.powerLosses }

/-- Fault entry, `raise Fault(code)` (60_exceptions.md R114): the pending command is abandoned, PHASE and ERRCODE are
written, nothing else changes. -/
def raiseFault (code : ErrCode) (s : State) : State :=
  { s with pend := none, busyLeft := 0, phase := .fault, errcode := code }

/-- The table of 10_state.md R40: the phases in which a command is legal. -/
def legalIn : Pending → Phase → Bool
  | .keyPush _, ph => decide (ph = .idle)
  | .expand, ph => decide (ph = .idle)
  | .seed, ph => decide (ph = .expanded)
  | .prime, ph => decide (ph = .seeded)
  | .xform _, ph => decide (ph = .primed) || decide (ph = .streaming)

/-- The command a pending one was written as (R38). -/
def Pending.command : Pending → Instr
  | .keyPush b => .keyPush b
  | .expand => .expand
  | .seed => .seed
  | .prime => .prime
  | .xform b => .xform b

/-- Acceptance, `PEND <- c` (42_control.md R105). The implementation now fixes how many host accesses come before the
completion, a free value (R133, log entry 4). -/
def accept (c : Params) (p : Pending) (s : State) : State :=
  { s with pend := some p, busyLeft := c.busyLength s.accepted, accepted := s.accepted + 1 }

/-- The issue checks of 42_control.md R105 in their order, which is the priority of 60_exceptions.md R112. `late` is the
command's own check, made after all others: KEY_EMPTY or KEY_OVERFLOW. -/
def issueCommand (c : Params) (p : Pending) (late : Option ErrCode) (s : State) : State :=
  if s.phase = .fault then s
  else if s.pend ≠ none then raiseFault .cmdWhileBusy s
  else if legalIn p s.phase = false then raiseFault .order s
  else match late with
    | some code => raiseFault code s
    | none => accept c p s

/-- What a word that decodes to ILLEGAL does (30_encoding.md R67, 42_control.md R105). -/
def issueIllegal (s : State) : State :=
  if s.phase = .fault then s
  else if s.pend ≠ none then raiseFault .cmdWhileBusy s
  else raiseFault .illegalCmd s

/-- The end of every completion step: `PEND <- none` (42_control.md R106). -/
def finish (s : State) : State :=
  { s with pend := none, busyLeft := 0 }

end Sys2Proof.Machine
end

