-- ==== Sys2Proof/Machine/Operands.lean ====
section
/-! DEFINITION. The operand forms of the commands and the arithmetic over them: the word view of the seed buffer
(20_memory.md R49), the keystream byte (41_cipher_engine.md R92), the accumulator round (R93). -/

namespace Sys2Proof.Machine

/-- mul32(a, b): the low 32 bits of the exact product of the unsigned numbers (00_scope.md R15). -/
def mul32 (a b : Word) : Word :=
  BitVec.ofNat 32 (a.toNat * b.toNat)

/-- word(SB, i) (20_memory.md R49). -/
def seedWord (c : Params) (m : Memory) (i : Nat) : Word :=
  match c.seedOrder with
  | .le => (m.read (4 * i + 3) ++ m.read (4 * i + 2) ++ m.read (4 * i + 1) ++ m.read (4 * i) : BitVec (8 + 8 + 8 + 8))
  | .be => (m.read (4 * i) ++ m.read (4 * i + 1) ++ m.read (4 * i + 2) ++ m.read (4 * i + 3) : BitVec (8 + 8 + 8 + 8))

/-- words(SB) (20_memory.md R49). -/
def seedWords (c : Params) (m : Memory) : List Word :=
  (List.range c.seedWords).map (seedWord c m)

/-- KSByte(acc) = acc[31:24] (41_cipher_engine.md R92). -/
def ksByte (acc : Word) : Byte :=
  acc.extractLsb' 24 8

/-- The multiplier of a round: the generator word with bit 0 forced to 1 (41_cipher_engine.md R93). -/
def oddMultiplier (g : Word) : Word :=
  g ||| 0x00000001

/-- Round(acc, gen) (41_cipher_engine.md R93): one generator step, one multiplication. -/
def accRound (c : Params) (acc : Word) (gen : GenState) : Word × GenState :=
  (mul32 acc (oddMultiplier (c.genNext gen).1), (c.genNext gen).2)

/-- `repeat n times`: each round discards its keystream byte (41_cipher_engine.md R96). -/
def accRounds (c : Params) : Nat → Word → GenState → Word × GenState
  | 0, acc, gen => (acc, gen)
  | n + 1, acc, gen => accRounds c n (accRound c acc gen).1 (accRound c acc gen).2

/-- DOUT <- zext_32(o) (41_cipher_engine.md R99). -/
def zext32 (o : Byte) : Word :=
  o.setWidth 32

end Sys2Proof.Machine
end

