-- ==== Sys2Proof/Machine/CipherEngine.lean ====
section
/-! DEFINITION. The cipher engine commands SEED, PRIME and XFORM (41_cipher_engine.md R91 to R104): for each its issue
step (`exec…`) and its completion step (`complete…`). None has an issue check of its own beyond the phase table. -/

namespace Sys2Proof.Machine

/-! ### SEED (R95) -/

/-- Issue of SEED. -/
def issueSeed (c : Params) (s : State) : State :=
  issueCommand c .seed none s

/-- The write of SEED to CMD on this instance. -/
def execSeed (s : State) : Host.Outcome State Fault Refusal :=
  .next (issueSeed Config.params s)

/-- Completion of SEED: GEN <- GenSeed(words(SB)), a full replacement; PHASE <- SEEDED. -/
def completeSeed (c : Params) (s : State) : Host.Outcome State Fault Refusal :=
  .next (finish { s with gen := some (c.genSeed (seedWords c s.sb)), phase := .seeded })

/-! ### PRIME (R96) -/

/-- Issue of PRIME. -/
def issuePrime (c : Params) (s : State) : State :=
  issueCommand c .prime none s

/-- The write of PRIME to CMD on this instance. -/
def execPrime (s : State) : Host.Outcome State Fault Refusal :=
  .next (issuePrime Config.params s)

/-- Completion of PRIME: ACC <- 1, then N_PRIME rounds; PHASE <- PRIMED. -/
def completePrime (c : Params) (s : State) : Host.Outcome State Fault Refusal :=
  match s.gen with
  | none => .fault .generatorUnseeded
  | some g =>
    .next (finish { s with
      acc := (accRounds c c.nPrime 0x00000001 g).1
      gen := some (accRounds c c.nPrime 0x00000001 g).2
      phase := .primed })

/-! ### XFORM (R99) -/

/-- Issue of XFORM b. -/
def issueXform (c : Params) (b : Byte) (s : State) : State :=
  issueCommand c (.xform b) none s

/-- The write of XFORM b to CMD on this instance. -/
def execXform (b : Byte) (s : State) : Host.Outcome State Fault Refusal :=
  .next (issueXform Config.params b s)

/-- Completion of XFORM b: DOUT <- KSByte(ACC) ^ b with ACC as it was before the round (R100), then one round; PHASE <-
STREAMING. -/
def completeXform (c : Params) (b : Byte) (s : State) : Host.Outcome State Fault Refusal :=
  match s.gen with
  | none => .fault .generatorUnseeded
  | some g =>
    .next (finish { s with
      dout := zext32 (ksByte s.acc ^^^ b)
      acc := (accRound c s.acc g).1
      gen := some (accRound c s.acc g).2
      phase := .streaming })

end Sys2Proof.Machine
end

