-- ==== Sys2Proof/Machine/KeySchedule.lean ====
section
/-! DEFINITION. The key schedule commands KEY_PUSH and EXPAND (40_key_schedule.md R79 to R90): for each its issue step
(`exec…`, what the write to CMD does) and its completion step (`complete…`, what the engine does). -/

namespace Sys2Proof.Machine

/-! ### KEY_PUSH (R80) -/

/-- KEY_PUSH's own issue check: KEY_OVERFLOW unless |KEY| < KEY_MAX. -/
def keyPushCheck (c : Params) (s : State) : Option ErrCode :=
  if s.key.length < c.keyMax then none else some .keyOverflow

/-- Issue of KEY_PUSH b. -/
def issueKeyPush (c : Params) (b : Byte) (s : State) : State :=
  issueCommand c (.keyPush b) (keyPushCheck c s) s

/-- The write of KEY_PUSH b to CMD on this instance. -/
def execKeyPush (b : Byte) (s : State) : Host.Outcome State Fault Refusal :=
  .next (issueKeyPush Config.params b s)

/-- Completion of KEY_PUSH b: KEY <- KEY ++ [b], PHASE stays. -/
def completeKeyPush (b : Byte) (s : State) : Host.Outcome State Fault Refusal :=
  .next (finish (keyAppend b s))

/-! ### EXPAND (R81) and the key schedule function KS (R82) -/

/-- What KS leaves: the seed buffer, and the inputs of the digest calls it made, first call first (R86,
70_reset_and_hazards.md R132). The inputs are a record of the work; nothing reads them. -/
structure KsRun where
  sb : Memory
  inputs : List (List Byte)
  deriving DecidableEq, Repr

/-- The loop of KS (R82, step 3): while `rem > 0`, digest every byte written so far and copy `min(D, rem)` bytes at
`off`. The first argument bounds the iterations; W of them are enough, since `rem` falls in each (R87). -/
def ksLoop (c : Params) : Nat → Nat → Nat → KsRun → Option KsRun
  | 0, _, rem, r => if rem = 0 then some r else none
  | fuel + 1, off, rem, r =>
    if rem = 0 then some r
    else
      match memRead c r.sb 0 off with
      | none => none
      | some written =>
        match memWrite c r.sb off ((digest c written).take (min c.digestLen rem)) with
        | none => none
        | some sb => ksLoop c fuel (off + min c.digestLen rem) (rem - min c.digestLen rem) ⟨sb, r.inputs ++ [written]⟩

/-- KS(P) on the seed buffer as it stands (R82). `rem` starts at `W - min(D, W)` (R83, 90_conflicts.md C1); the
digest input is the half-open SB[0..off) (90_conflicts.md C6). -/
def ks (c : Params) (key : List Byte) (sb : Memory) : Option KsRun :=
  match memWrite c sb 0 ((digest c key).take (min c.digestLen c.seedWidth)) with
  | none => none
  | some sb' =>
    ksLoop c c.seedWidth (min c.digestLen c.seedWidth) (c.seedWidth - min c.digestLen c.seedWidth) ⟨sb', [key]⟩

/-- EXPAND's own issue check: KEY_EMPTY if |KEY| = 0. -/
def expandCheck (s : State) : Option ErrCode :=
  if s.key.length = 0 then some .keyEmpty else none

/-- Issue of EXPAND. -/
def issueExpand (c : Params) (s : State) : State :=
  issueCommand c .expand (expandCheck s) s

/-- The write of EXPAND to CMD on this instance. -/
def execExpand (s : State) : Host.Outcome State Fault Refusal :=
  .next (issueExpand Config.params s)

/-- Completion of EXPAND: KS(KEY) fills SB, PHASE <- EXPANDED. -/
def completeExpand (c : Params) (s : State) : Host.Outcome State Fault Refusal :=
  match ks c s.key s.sb with
  | none => .fault .seedBufferBounds
  | some r => .next (finish { s with sb := r.sb, phase := .expanded })

end Sys2Proof.Machine
end

