-- ==== Sys2Proof/Machine/Engine.lean ====
section
/-! DEFINITION. The engine's completion step (42_control.md R106) and when it is the engine's turn
(70_reset_and_hazards.md R133). -/

namespace Sys2Proof.Machine

/-- The completion step of a pending command (R106). -/
def complete (c : Params) (p : Pending) (s : State) : Host.Outcome State Fault Refusal :=
  match p with
  | .keyPush b => completeKeyPush b s
  | .expand => completeExpand c s
  | .seed => completeSeed c s
  | .prime => completePrime c s
  | .xform b => completeXform c b s

/-- The engine's step. It has none when PEND is none (R106). -/
def engineStepWith (c : Params) (s : State) : Host.Outcome State Fault Refusal :=
  match s.pend with
  | none => .next s
  | some p => complete c p s

/-- The engine's step on this instance. -/
def engineStep (s : State) : Host.Outcome State Fault Refusal :=
  engineStepWith Config.params s

/-- It is the engine's turn when a command is pending and its BUSY interval is over, or when the host sends nothing
more (R133, log entries 4 and 5). Nothing runs in reset or without power (R124, R123). -/
def engineTurn (s : State) : Bool :=
  decide (s.line = .running) && s.pend.isSome && (decide (s.busyLeft = 0) || s.input.isEmpty)

end Sys2Proof.Machine
end

