-- ==== Sys2Proof/WellFormed.lean ====
section
/-! DEFINITION. What the spec checks of a term before it has a meaning: the fields of a command word (30_encoding.md R63
to R65) and the literals of a statement (R72, R73). An `Instr` needs no check of its own: its one operand is a byte by
its type, which is all R65 asks of DATA. -/

namespace Sys2Proof

/-- OPCODE is in a row of the map (R63). -/
def Fields.opcodeAssigned (f : Fields) : Bool :=
  decide (f.opcode ∈ [0x01#8, 0x02#8, 0x03#8, 0x04#8, 0x05#8, 0xFF#8])

/-- OPCODE names a command that has a byte operand: KEY_PUSH or XFORM (R65). -/
def Fields.takesData (f : Fields) : Bool :=
  decide (f.opcode ∈ [0x01#8, 0x05#8])

/-- The checks of R63 to R65: an assigned OPCODE, RSV zero, and DATA zero where the command has no operand. -/
def Fields.wellFormed (f : Fields) : Bool :=
  f.opcodeAssigned && decide (f.rsv = 0) && (f.takesData || decide (f.data = 0))

/-- A `<byte>` literal is 0 to 255 (R72). -/
def byteLiteralOk (n : Nat) : Bool := decide (n < 256)

/-- A character of a string is an ASCII code (R73). -/
def asciiOk (n : Nat) : Bool := decide (n < 128)

/-- The literals of a statement are in range (R71 to R73). -/
def Stmt.wellFormed : Stmt → Bool
  | .wr _ imm => decide (imm < 4294967296)
  | .rd _ => true
  | .keyPush b => byteLiteralOk b
  | .expand => true
  | .seed => true
  | .prime => true
  | .xform b => byteLiteralOk b
  | .srst => true
  | .key codes => codes.all asciiOk
  | .setup => true
  | .wait => true
  | .enc b => byteLiteralOk b
  | .dec b => byteLiteralOk b
  | .xstr codes => codes.all asciiOk

end Sys2Proof
end

