-- ==== Sys2Proof/Decode.lean ====
section
/-! DEFINITION. Decoding and encoding of command words (30_encoding.md R61 to R69) and of the 3-bit register index
(10_state.md R20). -/

namespace Sys2Proof

/-- OPCODE = word[31:24], RSV = word[23:8], DATA = word[7:0] (R62). -/
def Fields.ofWord (w : Word) : Fields where
  opcode := w.extractLsb' 24 8
  rsv := w.extractLsb' 8 16
  data := w.extractLsb' 0 8

/-- The word with these fields (R61). -/
def Fields.toWord (f : Fields) : Word :=
  (f.opcode ++ f.rsv ++ f.data : BitVec (8 + 16 + 8))

/-- R66's `decode`, test by test in its order. It depends on the word alone (R69). -/
def decode (w : Word) : Decoded :=
  let f := Fields.ofWord w
  if f.rsv ≠ 0 then .illegal .reservedNonzero
  else if f.opcode = 0x01 then .command (.keyPush f.data)
  else if f.opcode = 0x05 then .command (.xform f.data)
  else if f.data ≠ 0 then .illegal .dataNonzero
  else if f.opcode = 0x02 then .command .expand
  else if f.opcode = 0x03 then .command .seed
  else if f.opcode = 0x04 then .command .prime
  else if f.opcode = 0xFF then .command .srst
  else .illegal .opcodeUnassigned

/-- The OPCODE column of the map (R63). -/
def Instr.opcode : Instr → BitVec 8
  | .keyPush _ => 0x01
  | .expand => 0x02
  | .seed => 0x03
  | .prime => 0x04
  | .xform _ => 0x05
  | .srst => 0xFF

/-- The DATA column of the map (R63): zero where the command has no operand. -/
def Instr.data : Instr → Byte
  | .keyPush b => b
  | .expand => 0
  | .seed => 0
  | .prime => 0
  | .xform b => b
  | .srst => 0

/-- The one word that stands for a command (R63, R72). -/
def encode (i : Instr) : Word :=
  Fields.toWord ⟨i.opcode, 0, i.data⟩

/-- The register a 3-bit index selects (10_state.md R20). -/
def HostReg.ofIndex (i : BitVec 3) : HostReg :=
  if i = 0 then .id
  else if i = 1 then .cfg0
  else if i = 2 then .cfg1
  else if i = 3 then .cmd
  else if i = 4 then .status
  else if i = 5 then .dout
  else if i = 6 then .keylen
  else .reserved7

/-- The index of a register (10_state.md R20). -/
def HostReg.index : HostReg → BitVec 3
  | .id => 0
  | .cfg0 => 1
  | .cfg1 => 2
  | .cmd => 3
  | .status => 4
  | .dout => 5
  | .keylen => 6
  | .reserved7 => 7

/-- The command the decoder reads from a word numbered as spec/opcode_table.json numbers it. A command is one 32-bit
word and never longer (R62); the bits above `nbits` are zero. -/
def decodeTableWord (nbits w : Nat) : Option Instr :=
  if nbits ≤ 32 then
    match decode (BitVec.ofNat 32 (w % 2 ^ nbits)) with
    | .command i => some i
    | .illegal _ => none
  else none

end Sys2Proof
end

