-- ==== Sys2Proof/Machine/Control.lean ====
section
/-! DEFINITION. SRST (42_control.md R107), the hard reset (70_reset_and_hazards.md R124) and the loss of power
(60_exceptions.md R123). -/

namespace Sys2Proof.Machine

/-- SRST: every piece of state to its reset value, at the write, in every phase and BUSY or not. A pending command
never completes. -/
def execSrst (s : State) : Host.Outcome State Fault Refusal :=
  .next (resetBlock s)

/-- The reset input is asserted: the pending command is abandoned, and every piece of state holds its reset value from
here until a first access after the release (R124). -/
def assertReset (s : State) : State :=
  { resetBlock s with line := .inReset }

/-- The reset input is released. Where it was not asserted there is nothing to release; a reset held across a loss of
power counts as not asserted (log entries 9 and 23). -/
def releaseReset (s : State) : State :=
  if s.line = .inReset then { s with line := .running } else s

/-- Power is lost and comes back. The state is not retained (60_exceptions.md R123): every piece of it takes a free
value, held only to what the register's shape gives it whatever it holds: SB has W bytes (10_state.md R34), KEY at most
KEY_MAX (R33), DOUT[31:8] reads 0 (R29). The block answers no access before a hard reset (log entry 10, DESIGN CHOICE). A
reset input that was asserted is forgotten: its release later is no hard reset, only a new assertion is (log entry 23,
DESIGN CHOICE). -/
def losePower (s : State) : State :=
  { s with
    phase := (Config.params.powerUp s.powerLosses).phase
    errcode := (Config.params.powerUp s.powerLosses).errcode
    pend := (Config.params.powerUp s.powerLosses).pend
    key := (Config.params.powerUp s.powerLosses).key.take Config.params.keyMax
    sb := Memory.writeBytes [] 0 ((List.range Config.params.seedWidth).map (Config.params.powerUp s.powerLosses).sbByte)
    gen := (Config.params.powerUp s.powerLosses).gen
    acc := (Config.params.powerUp s.powerLosses).acc
    dout := zext32 (Config.params.powerUp s.powerLosses).dout
    line := .unpowered
    powerLosses := s.powerLosses + 1 }

end Sys2Proof.Machine
end

