-- ==== Sys2Proof/Machine/Dispatch.lean ====
section
/-! DEFINITION. The issue step of each command: what the host's write of its word to CMD does (42_control.md R105). -/

namespace Sys2Proof.Machine

def exec (i : Instr) (s : State) : Host.Outcome State Fault Refusal :=
  match i with
  | .keyPush b => Sys2Proof.Machine.execKeyPush b s
  | .expand => Sys2Proof.Machine.execExpand s
  | .seed => Sys2Proof.Machine.execSeed s
  | .prime => Sys2Proof.Machine.execPrime s
  | .xform b => Sys2Proof.Machine.execXform b s
  | .srst => Sys2Proof.Machine.execSrst s

end Sys2Proof.Machine
end

