-- ==== Sys2Proof/Machine/Flags.lean ====
section
/-! DEFINITION. The status bits (10_state.md R25 to R28). They are the block's only ones: no operation sets a condition
flag (R35, 41_cipher_engine.md R93). -/

namespace Sys2Proof.Machine

/-- STATUS.STATE (R27). -/
def Phase.code : Phase → BitVec 3
  | .idle => 0
  | .expanded => 1
  | .seeded => 2
  | .primed => 3
  | .streaming => 4
  | .fault => 7

/-- The code column of 60_exceptions.md R109. -/
def ErrCode.code : ErrCode → BitVec 8
  | .none => 0x00
  | .illegalCmd => 0x01
  | .order => 0x02
  | .keyEmpty => 0x03
  | .keyOverflow => 0x04
  | .cmdWhileBusy => 0x05

/-- STATUS.BUSY = 1 exactly when PEND is not none (R25). -/
def busyBit (s : State) : BitVec 1 :=
  BitVec.ofBool s.pend.isSome

/-- STATUS.FAULT = 1 exactly when PHASE = FAULT (R26). -/
def faultBit (s : State) : BitVec 1 :=
  BitVec.ofBool (decide (s.phase = .fault))

/-- STATUS, field by field from bit 31 down (R25). -/
def statusWord (s : State) : Word :=
  (0#16 ++ s.errcode.code ++ 0#1 ++ s.phase.code ++ 0#2 ++ faultBit s ++ busyBit s : BitVec (16 + 8 + 1 + 3 + 2 + 1 + 1))

end Sys2Proof.Machine
end

