-- ==== Sys2Proof/Machine/Port.lean ====
section
/-! DEFINITION. The host register port (10_state.md R20 to R31, 20_memory.md R45 to R48), the platform's bus bridge
(R46), and what each input from outside does (R53, 70_reset_and_hazards.md R124, 60_exceptions.md R123). -/

namespace Sys2Proof.Machine

/-- CFG0 (10_state.md R22), field by field from bit 31 down. -/
def cfg0Word (c : Params) : Word :=
  (0#7 ++ BitVec.ofBool (decide (c.seedOrder = .be)) ++ BitVec.ofNat 8 c.digestLen ++ BitVec.ofNat 16 c.seedWidth :
    BitVec (7 + 1 + 8 + 16))

/-- The value a read of a register returns (10_state.md R20 to R31). -/
def readRegWith (c : Params) (r : HostReg) (s : State) : Word :=
  match r with
  | .id => 0x4D544B53
  | .cfg0 => cfg0Word c
  | .cfg1 => BitVec.ofNat 32 c.nPrime
  | .cmd => 0x00000000
  | .status => statusWord s
  | .dout => s.dout
  | .keylen => BitVec.ofNat 32 s.key.length
  | .reserved7 => 0x00000000

/-- The value a read of a register returns on this instance. -/
def readReg (r : HostReg) (s : State) : Word :=
  readRegWith Config.params r s

/-- A read at the port: no state of the block changes (20_memory.md R48); the observation gains the value (R134). -/
def portRead (r : HostReg) (s : State) : State :=
  { s with observed := s.observed ++ [.value r (readReg r s)] }

/-- What a write of a word to CMD does (42_control.md R105). -/
def issueWord (w : Word) (s : State) : Host.Outcome State Fault Refusal :=
  match decode w with
  | .command i => exec i s
  | .illegal _ => .next (issueIllegal s)

/-- A write at the port: only CMD takes one, every other register ignores it (20_memory.md R47, R48). -/
def portWrite (r : HostReg) (w : Word) (s : State) : Host.Outcome State Fault Refusal :=
  match r with
  | .cmd => issueWord w s
  | .id => .next s
  | .cfg0 => .next s
  | .cfg1 => .next s
  | .status => .next s
  | .dout => .next s
  | .keylen => .next s
  | .reserved7 => .next s

/-- One turn of the polling loop WAIT (30_encoding.md R76): read STATUS, and come again while BUSY was 1. -/
def portWait (s : State) : State :=
  if (readReg .status s).getLsbD 0 then { portRead .status s with input := .wait :: s.input }
  else portRead .status s

/-- What the bridge makes of a bus access (20_memory.md R46). -/
inductive BusTarget where
  | reg (r : HostReg)
  | subword
  | unmapped
  deriving DecidableEq, Repr

/-- Register i sits at KSG_BASE + 4*i, for one aligned 32-bit word; the window is 32 bytes (20_memory.md R46). -/
def busTarget (c : Params) (addr bytes : Nat) : BusTarget :=
  if addr < c.ksgBase ∨ c.ksgBase + 32 ≤ addr then .unmapped
  else if bytes = 4 ∧ (addr - c.ksgBase) % 4 = 0 then .reg (HostReg.ofIndex (BitVec.ofNat 3 ((addr - c.ksgBase) / 4)))
  else .subword

/-- A bus access that is not one aligned 32-bit word, by BRIDGE_SUBWORD (20_memory.md R46). -/
def subwordAccess (c : Params) (s : State) : Host.Outcome State Fault Refusal :=
  match c.bridgeSubword with
  | .busFault => .next { s with observed := s.observed ++ [.busFault] }
  | .platformDefined => .refused .bridgeSubword

/-- A read from the bus. -/
def busReadWith (c : Params) (addr bytes : Nat) (s : State) : Host.Outcome State Fault Refusal :=
  match busTarget c addr bytes with
  | .reg r => .next (portRead r s)
  | .subword => subwordAccess c s
  | .unmapped => .fault .busAddressUnmapped

/-- A write from the bus. -/
def busWriteWith (c : Params) (addr bytes : Nat) (w : Word) (s : State) : Host.Outcome State Fault Refusal :=
  match busTarget c addr bytes with
  | .reg r => portWrite r w s
  | .subword => subwordAccess c s
  | .unmapped => .fault .busAddressUnmapped

/-- A host access reaches the block only while it runs: none is accepted in reset (70_reset_and_hazards.md R124), and a
hard reset must follow a loss of power first (60_exceptions.md R123). An access in reset is lost (log entry 9), and one
before the hard reset is refused (log entry 10). `served` is what the access does when it is accepted. -/
def atPort (s : State) (served : Host.Outcome State Fault Refusal) : Host.Outcome State Fault Refusal :=
  match s.line with
  | .running => served
  | .inReset => .next { s with observed := s.observed ++ [.notAccepted] }
  | .unpowered => .refused .noResetSincePowerUp

/-- What one input does, once taken from the list. Two DESIGN CHOICES beside R124: for a bus access the line answers
first, and the bridge is asked only in a running block, so a narrow, misaligned or out-of-window access in reset is lost
and one without power is refused like any other (log entry 13); a WAIT polled in reset is one lost access and ends there,
with no read of BUSY = 0 (log entry 15). -/
def takeInput (e : HostInput) (s : State) : Host.Outcome State Fault Refusal :=
  match e with
  | .read r => atPort s (.next (portRead r s))
  | .write r w => atPort s (portWrite r w s)
  | .wait => atPort s (.next (portWait s))
  | .busRead addr bytes => atPort s (busReadWith Config.params addr bytes s)
  | .busWrite addr bytes w => atPort s (busWriteWith Config.params addr bytes w s)
  | .resetAssert => .next (assertReset s)
  | .resetRelease => .next (releaseReset s)
  | .powerLoss => .next (losePower s)

/-- The host's turn: its next input arrives, and the BUSY interval is one access shorter. With no input the block waits
for one and holds its state (60_exceptions.md R123, 70_reset_and_hazards.md R124). -/
def hostTurn (s : State) : Host.Outcome State Fault Refusal :=
  match s.input with
  | [] => .next s
  | e :: rest => takeInput e { s with input := rest, busyLeft := s.busyLeft - 1 }

/-- The word `w` is the host's next access, a write to CMD, and the next step takes it: the block runs, and one access
more is to come before any pending command completes. -/
def presentWord (w : Word) (s : State) : State :=
  { s with line := .running, input := .write .cmd w :: s.input, busyLeft := s.busyLeft + 1 }

end Sys2Proof.Machine
end

