-- ==== Sys2Proof/Machine/Step.lean ====
section
/-! DEFINITION. The step: one completion step of the engine, or one input from outside (00_scope.md R6, 20_memory.md
R53). Which of the two is next is plain data of the state. -/

namespace Sys2Proof.Machine

/-- One step of the machine. -/
def step (s : State) : Host.Outcome State Fault Refusal :=
  if engineTurn s then engineStep s else hostTurn s

/-- The command word is the next thing the host writes to CMD, so that the next step runs it (log entry 6). -/
def State.withFetchWord (s : State) (nbits w : Nat) : State :=
  presentWord (BitVec.ofNat 32 (w % 2 ^ nbits)) s

end Sys2Proof.Machine
end

