-- ==== Sys2Proof/Machine/Assembler.lean ====
section
/-! DEFINITION. Host programs (30_encoding.md R70 to R78): what each statement sends to the block, and the text form of
a program, one statement a line. What the spec leaves open of the text form is log entry 18. -/

namespace Sys2Proof.Machine

/-! ### What a statement stands for (R71, R72, R74 to R78) -/

/-- A command mnemonic: exactly one write of its word to CMD (R72). -/
def commandWrite (i : Instr) : HostInput :=
  .write .cmd (encode i)

/-- A command and the WAIT after it. -/
def commandWait (i : Instr) : List HostInput :=
  [commandWrite i, .wait]

/-- ENC and DEC of a byte: XFORM, WAIT, RD DOUT (R77). -/
def transformByte (b : Byte) : List HostInput :=
  commandWait (.xform b) ++ [.read .dout]

/-- What a statement whose literals are in range sends. -/
def Stmt.inputs : Stmt → List HostInput
  | .wr r imm => [.write r (BitVec.ofNat 32 imm)]
  | .rd r => [.read r]
  | .keyPush b => [commandWrite (.keyPush (BitVec.ofNat 8 b))]
  | .expand => [commandWrite .expand]
  | .seed => [commandWrite .seed]
  | .prime => [commandWrite .prime]
  | .xform b => [commandWrite (.xform (BitVec.ofNat 8 b))]
  | .srst => [commandWrite .srst]
  | .key codes => codes.flatMap fun ch => commandWait (.keyPush (BitVec.ofNat 8 ch))
  | .setup => commandWait .expand ++ commandWait .seed ++ commandWait .prime
  | .wait => [.wait]
  | .enc b => transformByte (BitVec.ofNat 8 b)
  | .dec b => transformByte (BitVec.ofNat 8 b)
  | .xstr codes => codes.flatMap fun ch => transformByte (BitVec.ofNat 8 ch)

/-- A program's inputs, statement after statement; a literal out of range is an assembly error (R72). -/
def assemble : List Stmt → Option (List HostInput)
  | [] => some []
  | st :: rest =>
    if st.wellFormed then (assemble rest).map (Stmt.inputs st ++ ·) else none

/-! ### The text form (R70 to R73) -/

/-- A piece of a line: a name, number or `=>`, a quoted string, or a quoted character. -/
inductive Token where
  | name (chars : List Char)
  | str (codes : List Nat)
  | chr (code : Nat)
  deriving DecidableEq, Repr

/-- Where the reader of a line stands. -/
inductive LexMode where
  | between
  | inName (soFar : List Char)
  | inStr (soFar : List Nat)
  | chrOpen
  | chrRead (code : Nat)
  deriving DecidableEq, Repr

/-- Blanks, tabs and commas part the pieces of a line. -/
def isGap (ch : Char) : Bool :=
  decide (ch.toNat = 32) || decide (ch.toNat = 9) || decide (ch.toNat = 44)

/-- `;` starts a comment (R70), but not inside quotes. -/
def isSemicolon (ch : Char) : Bool := decide (ch.toNat = 59)

/-- The quote of a string (R73). -/
def isStringQuote (ch : Char) : Bool := decide (ch.toNat = 34)

/-- The quote of a character (R73). -/
def isCharQuote (ch : Char) : Bool := decide (ch.toNat = 39)

/-- The pieces of a line, up to its comment; `none` where a quote stays open. A string ends at the next quote and has no
terminating zero byte (R73). -/
def lexLine : LexMode → List Char → Option (List Token)
  | .between, [] => some []
  | .inName acc, [] => some [.name acc]
  | .inStr _, [] => none
  | .chrOpen, [] => none
  | .chrRead _, [] => none
  | .between, ch :: rest =>
    if isSemicolon ch then some []
    else if isGap ch then lexLine .between rest
    else if isStringQuote ch then lexLine (.inStr []) rest
    else if isCharQuote ch then lexLine .chrOpen rest
    else lexLine (.inName [ch]) rest
  | .inName acc, ch :: rest =>
    if isSemicolon ch then some [.name acc]
    else if isGap ch then (lexLine .between rest).map (Token.name acc :: ·)
    else lexLine (.inName (acc ++ [ch])) rest
  | .inStr acc, ch :: rest =>
    if isStringQuote ch then (lexLine .between rest).map (Token.str acc :: ·)
    else lexLine (.inStr (acc ++ [ch.toNat])) rest
  | .chrOpen, ch :: rest => lexLine (.chrRead ch.toNat) rest
  | .chrRead code, ch :: rest =>
    if isCharQuote ch then (lexLine .between rest).map (Token.chr code :: ·) else none

/-- The value of a decimal digit. -/
def decimalDigit (ch : Char) : Option Nat :=
  if 48 ≤ ch.toNat ∧ ch.toNat ≤ 57 then some (ch.toNat - 48) else none

/-- The value of a hexadecimal digit of either case. -/
def hexDigit (ch : Char) : Option Nat :=
  if 65 ≤ ch.toNat ∧ ch.toNat ≤ 70 then some (ch.toNat - 55)
  else if 97 ≤ ch.toNat ∧ ch.toNat ≤ 102 then some (ch.toNat - 87)
  else decimalDigit ch

/-- The number some digits write in a base, after `acc`. -/
def digitsValue (digit : Char → Option Nat) (base : Nat) : Nat → List Char → Option Nat
  | acc, [] => some acc
  | acc, ch :: rest =>
    match digit ch with
    | none => none
    | some d => digitsValue digit base (acc * base + d) rest

/-- A decimal or hexadecimal number (R73). -/
def numberValue : List Char → Option Nat
  | [] => none
  | ch :: rest =>
    if ch.toNat = 48 ∧ (rest.head?.map Char.toNat) = some 120 ∧ rest.tail ≠ [] then
      digitsValue hexDigit 16 0 rest.tail
    else digitsValue decimalDigit 10 0 (ch :: rest)

/-- A numeric literal: a number, or a character that stands for its ASCII code (R73). -/
def literalValue : Token → Option Nat
  | .name chars => numberValue chars
  | .chr code => if asciiOk code then some code else none
  | .str _ => none

/-- The name of a register (R71). -/
def regOfName (chars : List Char) : Option HostReg :=
  if chars = "ID".toList then some .id
  else if chars = "CFG0".toList then some .cfg0
  else if chars = "CFG1".toList then some .cfg1
  else if chars = "CMD".toList then some .cmd
  else if chars = "STATUS".toList then some .status
  else if chars = "DOUT".toList then some .dout
  else if chars = "KEYLEN".toList then some .keylen
  else if chars = "R7".toList then some .reserved7
  else none

/-- A register operand. -/
def regOperand : Token → Option HostReg
  | .name chars => regOfName chars
  | .str _ => none
  | .chr _ => none

/-- A string operand (R73). -/
def strOperand : Token → Option (List Nat)
  | .name _ => none
  | .str codes => some codes
  | .chr _ => none

/-- The value recorded after `=>` is the reader's note of what the rules give (R71); it sends nothing. -/
def beforeNote : List Token → List Token
  | [] => []
  | t :: rest => if t = .name "=>".toList then [] else t :: beforeNote rest

/-- A statement without operands. -/
def stmtOfName (chars : List Char) : Option Stmt :=
  if chars = "EXPAND".toList then some .expand
  else if chars = "SEED".toList then some .seed
  else if chars = "PRIME".toList then some .prime
  else if chars = "SRST".toList then some .srst
  else if chars = "SETUP".toList then some .setup
  else if chars = "WAIT".toList then some .wait
  else none

/-- A statement with one operand. -/
def stmtOfOperand (chars : List Char) (t : Token) : Option Stmt :=
  if chars = "RD".toList then (regOperand t).map .rd
  else if chars = "KEY_PUSH".toList then (literalValue t).map .keyPush
  else if chars = "XFORM".toList then (literalValue t).map .xform
  else if chars = "ENC".toList then (literalValue t).map .enc
  else if chars = "DEC".toList then (literalValue t).map .dec
  else if chars = "KEY".toList then (strOperand t).map .key
  else if chars = "XSTR".toList then (strOperand t).map .xstr
  else none

/-- A statement with two operands: only `WR` has them (R71). -/
def stmtOfTwo (chars : List Char) (t u : Token) : Option Stmt :=
  if chars = "WR".toList then
    match regOperand t, literalValue u with
    | some r, some imm => some (.wr r imm)
    | _, _ => none
  else none

/-- The statement the pieces of a line write. A line without pieces (blank, a comment only, or a `=>` note only) has none
and sends nothing: DESIGN CHOICE, since R70 gives each line one statement and does not speak of such a line (log entry
18). -/
def stmtOfTokens : List Token → Option (List Stmt)
  | [] => some []
  | [.name n] => (stmtOfName n).map fun st => [st]
  | [.name n, t] => (stmtOfOperand n t).map fun st => [st]
  | [.name n, t, u] => (stmtOfTwo n t u).map fun st => [st]
  | _ => none

/-- One line: one statement (R70), or none (log entry 18). -/
def parseLine (line : List Char) : Option (List Stmt) :=
  match lexLine .between line with
  | none => none
  | some tokens => stmtOfTokens (beforeNote tokens)

/-- A host program, line after line (R70). -/
def parseProgram : List (List Char) → Option (List Stmt)
  | [] => some []
  | line :: rest =>
    match parseLine line, parseProgram rest with
    | some now, some later => some (now ++ later)
    | _, _ => none

/-- The host sends an assembled program after what it was already sending. -/
def sendProgram (program : List HostInput) (s : State) : State :=
  { s with input := s.input ++ program }

end Sys2Proof.Machine
end

