-- ==== Sys2Proof/Safety.lean ====
section
/-! DEFINITION. The terms claims are stated in: the invariants of the reachable states (10_state.md R26, R28, R29, R33,
R42, R43; 40_key_schedule.md R90; 41_cipher_engine.md R97, R102), the closed forms of the key schedule (R86) and of the
keystream (R97, R100), and the transformation of a byte sequence by one XFORM per byte (R101). -/

namespace Sys2Proof.Machine

/-! ### Phases -/

/-- The phases in which the seed buffer holds the expanded passphrase (10_state.md R40). -/
def Phase.filled : Phase → Bool
  | .idle => false
  | .expanded => true
  | .seeded => true
  | .primed => true
  | .streaming => true
  | .fault => false

/-- The phases SEED alone leads to (10_state.md R43). -/
def Phase.generating : Phase → Bool
  | .idle => false
  | .expanded => false
  | .seeded => true
  | .primed => true
  | .streaming => true
  | .fault => false

/-- The table of 10_state.md R40, column `legal in PHASE`. -/
def tableLegal : Pending → Phase → Prop
  | .keyPush _, ph => ph = .idle
  | .expand, ph => ph = .idle
  | .seed, ph => ph = .expanded
  | .prime, ph => ph = .seeded
  | .xform _, ph => ph = .primed ∨ ph = .streaming

/-- The table of 10_state.md R40, column `PHASE after completion`. -/
def tableAfter : Pending → Phase
  | .keyPush _ => .idle
  | .expand => .expanded
  | .seed => .seeded
  | .prime => .primed
  | .xform _ => .streaming

/-- How far a session has come: the order of the phases before a fault (10_state.md R32). -/
def Phase.rank : Phase → Nat
  | .idle => 0
  | .expanded => 1
  | .seeded => 2
  | .primed => 3
  | .streaming => 4
  | .fault => 5

/-! ### Inputs -/

/-- The word an input brings to CMD, if it is a write to CMD, at the port or through the bus bridge (20_memory.md
R46). -/
def cmdWord (c : Params) : HostInput → Option Word
  | .read _ => none
  | .write r w => if r = .cmd then some w else none
  | .wait => none
  | .busRead _ _ => none
  | .busWrite addr bytes w => if busTarget c addr bytes = .reg .cmd then some w else none
  | .resetAssert => none
  | .resetRelease => none
  | .powerLoss => none

/-- An input that is a host access, and no event of the reset input or the power. -/
def HostInput.isAccess : HostInput → Bool
  | .read _ => true
  | .write _ _ => true
  | .wait => true
  | .busRead _ _ => true
  | .busWrite _ _ _ => true
  | .resetAssert => false
  | .resetRelease => false
  | .powerLoss => false

/-- The next step of this state is a loss of power: the host's turn, with that input next (60_exceptions.md R123). -/
def losesPower (s : State) : Prop :=
  engineTurn s = false ∧ ∃ rest, s.input = .powerLoss :: rest

/-! ### Closed forms -/

/-- c_1 ++ … ++ c_k (40_key_schedule.md R86): c_1 digests the passphrase, each later block digests all before it. -/
def digestChain (c : Params) (key : List Byte) : Nat → List Byte
  | 0 => []
  | k + 1 => digestChain c key k ++ digest c (if k = 0 then key else digestChain c key k)

/-- m = ceil(W / D), the number of digest calls (R86). -/
def digestCalls (c : Params) : Nat :=
  (c.seedWidth + c.digestLen - 1) / c.digestLen

/-- The input of digest call k + 1: the passphrase first, then everything written so far (R86, R89). -/
def digestInput (c : Params) (key : List Byte) (k : Nat) : List Byte :=
  if k = 0 then key else digestChain c key k

/-- SB after EXPAND, in closed form: take(W, c_1 ++ … ++ c_m) (R86). -/
def seedBytes (c : Params) (key : List Byte) : List Byte :=
  (digestChain c key (digestCalls c)).take c.seedWidth

/-- GenNext^n (41_cipher_engine.md R97): the generator after n steps. -/
def genAfter (c : Params) (g : GenState) : Nat → GenState
  | 0 => g
  | n + 1 => (c.genNext (genAfter c g n)).2

/-- g_(n+1), the word the generator returns in its step n + 1 (R97). -/
def genWord (c : Params) (g : GenState) (n : Nat) : Word :=
  (c.genNext (genAfter c g n)).1

/-- The product of (g_j | 1) for j from 1 to n, modulo 2^32 (R97, R100). -/
def accAfter (c : Params) (g : GenState) : Nat → Word
  | 0 => 0x00000001
  | n + 1 => mul32 (accAfter c g n) (oddMultiplier (genWord c g n))

/-- GEN and ACC stand `n` rounds after the seeding from this seed buffer (R97, R102). -/
def atPosition (c : Params) (n : Nat) (s : State) : Prop :=
  s.gen = some (genAfter c (c.genSeed (seedWords c s.sb)) n) ∧
    s.acc = accAfter c (c.genSeed (seedWords c s.sb)) n

/-! ### Reset -/

/-- Every piece of the block's state is at its reset value (10_state.md R41). -/
def blockReset (s : State) : Prop :=
  s.phase = .idle ∧ s.errcode = .none ∧ s.pend = none ∧ s.key = [] ∧ s.sb = [] ∧ s.gen = none ∧
    s.acc = 0x00000001 ∧ s.dout = 0x00000000

/-- Two states hold the same in every piece of the block's own state. -/
def sameBlock (s t : State) : Prop :=
  s.phase = t.phase ∧ s.errcode = t.errcode ∧ s.pend = t.pend ∧ s.key = t.key ∧ s.sb = t.sb ∧ s.gen = t.gen ∧
    s.acc = t.acc ∧ s.dout = t.dout

/-! ### Invariants -/

/-- What the shape of the registers gives them whatever they hold, with power or without. -/
structure StoreInv (c : Params) (s : State) : Prop where
  /-- The seed buffer is in canonical form, so that equal contents are equal data. -/
  sbCanonical : Memory.wf s.sb
  /-- No byte lies outside SB[0..W) (10_state.md R34, 20_memory.md R50, 40_key_schedule.md R87). -/
  sbInside : ∀ x ∈ s.sb, x.1 < c.seedWidth
  /-- |KEY| <= KEY_MAX (10_state.md R33). -/
  keyBounded : s.key.length ≤ c.keyMax
  /-- DOUT[31:8] is 0 (10_state.md R29). -/
  doutByte : s.dout.extractLsb' 8 24 = 0

/-- What holds of the block's state at reset and after every step of a block that has power. -/
structure BlockInv (c : Params) (s : State) : Prop extends StoreInv c s where
  /-- ACC is odd (10_state.md R42). -/
  accOdd : s.acc.getLsbD 0 = true
  /-- ERRCODE is 0x00 exactly outside FAULT (10_state.md R28). -/
  errcodeFault : s.errcode = .none ↔ s.phase ≠ .fault
  /-- No command is pending in FAULT (10_state.md R26). -/
  faultIdle : s.phase = .fault → s.pend = none
  /-- The generator is seeded wherever GenNext can be applied (10_state.md R43). -/
  genSeeded : s.phase.generating = true → s.gen.isSome = true
  /-- A pending command is legal in PHASE (42_control.md R105). -/
  pendLegal : ∀ p, s.pend = some p → legalIn p s.phase = true
  /-- A pending EXPAND has a passphrase (40_key_schedule.md R82). -/
  pendExpand : s.pend = some .expand → s.key ≠ []
  /-- A pending KEY_PUSH has room (40_key_schedule.md R80). -/
  pendKeyPush : ∀ b, s.pend = some (.keyPush b) → s.key.length < c.keyMax
  /-- Past IDLE there is a passphrase (40_key_schedule.md R81). -/
  keyPresent : s.phase.filled = true → s.key ≠ []

/-- The invariant of the machine: the shape of the registers always, and the block's invariant wherever the block has
had its hard reset since power came. Without that the spec gives the state no value (60_exceptions.md R123). -/
def MachineInv (c : Params) (s : State) : Prop :=
  StoreInv c s ∧ (s.line ≠ .unpowered → BlockInv c s)

/-- Where the session stands in its keystream: the seed buffer is the closed form of the key schedule, and generator
and accumulator stand a known number of rounds after the seeding (40_key_schedule.md R86, R90; 41_cipher_engine.md R97,
R100, R102). -/
structure KeystreamInv (c : Params) (s : State) : Prop where
  filled : s.phase.filled = true → s.sb.readBytes 0 c.seedWidth = seedBytes c s.key
  seeded : s.phase = .seeded → s.gen = some (c.genSeed (seedWords c s.sb))
  primed : s.phase = .primed → atPosition c c.nPrime s
  streaming : s.phase = .streaming → ∃ t, 1 ≤ t ∧ atPosition c (c.nPrime + t) s

/-! ### One command from its write to its completion, and a stream of them -/

/-- The write of a command to CMD, with its completion right after it, which is one of the executions the design admits
(42_control.md, R133). -/
def runCommand (i : Instr) (s : State) : Host.Outcome State Fault Refusal :=
  match exec i s with
  | .next t => engineStep t
  | .fault r => .fault r
  | .refused r => .refused r

/-- Transform a byte sequence, one XFORM per byte, and read DOUT[7:0] after each (70_reset_and_hazards.md R126, step 7):
the output bytes and the state after, or nothing where a step stops. -/
def transform : List Byte → State → Option (List Byte × State)
  | [], s => some ([], s)
  | b :: rest, s =>
    match runCommand (.xform b) s with
    | .next t => (transform rest t).map fun r => ((readReg .dout t).extractLsb' 0 8 :: r.1, r.2)
    | .fault _ => none
    | .refused _ => none

/-- The session is primed or streaming, with no command pending: the next XFORM is accepted. -/
def ready (s : State) : Prop :=
  (s.phase = .primed ∨ s.phase = .streaming) ∧ s.pend = none

end Sys2Proof.Machine
end

