-- ==== Sys2Proof/Certificates/Slice0/Obligations.lean ====
section
/-! DEFINITION. The statements for the provers. `Config.params` is opaque, so a statement about this instance holds for
every instance the spec allows; a statement about an operation alone quantifies over the parameters `c`. A record
update `{ s with … }` as a next state is the whole frame: every field it does not name is as before. `busyLeft`,
`accepted`, `input`, `observed` and `powerLosses` are the model's own fields (log entries 4, 6 and 10). -/

open Sys2Proof Sys2Proof.Machine

/-! ### Reset and the invariants -/

/-- R41: the reset values, as state and as the registers show them. -/
def Obligations.ResetValuesOfTheBlock : Prop :=
  blockReset State.reset ∧ State.reset.line = .running ∧
    ∀ s, blockReset s →
      readReg .status s = 0x00000000 ∧ readReg .dout s = 0x00000000 ∧ readReg .keylen s = 0x00000000

/-- R41, R42, R43: the invariants hold at reset. -/
def Obligations.ResetMeetsTheInvariants : Prop :=
  MachineInv Config.params State.reset ∧ BlockInv Config.params State.reset ∧ KeystreamInv Config.params State.reset

/-- R26, R28, R29, R33, R42, R43, R87: every step keeps the machine's invariant: the shape of the registers always, and
the block's invariant wherever the block has power and has had its hard reset. What a loss of power leaves is free (R123,
log entry 10). -/
def Obligations.StepKeepsTheBlockInvariant : Prop :=
  ∀ s t : State, MachineInv Config.params s → step s = .next t → MachineInv Config.params t

/-- R86, R90, R97, R102: every step keeps the session's place in its keystream known, wherever the block has power and
has had its hard reset. What a loss of power leaves is free (R123, log entry 10). -/
def Obligations.StepKeepsTheKeystreamInvariant : Prop :=
  ∀ s t : State, MachineInv Config.params s → (s.line ≠ .unpowered → KeystreamInv Config.params s) → step s = .next t →
    t.line ≠ .unpowered → KeystreamInv Config.params t

/-- R42: ACC is odd at reset and stays odd in every step, so it is never 0. Between a loss of power and the hard reset
ACC has no value of the spec, and the model's is free (R123, log entry 10). -/
def Obligations.AccumulatorIsOddAndNeverZero : Prop :=
  State.reset.acc.getLsbD 0 = true ∧
    (∀ s t : State, (s.line ≠ .unpowered → s.acc.getLsbD 0 = true) → step s = .next t → t.line ≠ .unpowered →
      t.acc.getLsbD 0 = true) ∧
    ∀ s : State, s.acc.getLsbD 0 = true → s.acc ≠ 0

/-! ### Encoding -/

/-- R63, R66, R72: a command's word decodes to the command, and no other word does. -/
def Obligations.DecodeAndEncodeAgree : Prop :=
  (∀ i : Instr, decode (encode i) = .command i) ∧ ∀ (w : Word) (i : Instr), decode w = .command i → w = encode i

/-- R63 to R66: a word is a command exactly when its fields pass the format's checks. -/
def Obligations.DecodeAcceptsExactlyTheWellFormedWords : Prop :=
  ∀ w : Word, (∃ i, decode w = .command i) ↔ (Fields.ofWord w).wellFormed = true

/-- R66: exactly 2 * 256 + 4 = 516 words decode to a command. -/
def Obligations.ExactlyFiveHundredSixteenWordsAreCommands : Prop :=
  Set.ncard {w : Word | ∃ i, decode w = .command i} = 516

/-- R63, R66: one word of each row of the map, and words next to them that are illegal. -/
def Obligations.WordsOfTheOpcodeMapDecode : Prop :=
  decode 0x010000FF = .command (.keyPush 0xFF) ∧ decode 0x02000000 = .command .expand ∧
    decode 0x03000000 = .command .seed ∧ decode 0x04000000 = .command .prime ∧
    decode 0x05000080 = .command (.xform 0x80) ∧ decode 0xFF000000 = .command .srst ∧
    decode 0x01000100 = .illegal .reservedNonzero ∧ decode 0xFF000001 = .illegal .dataNonzero ∧
    decode 0x00000000 = .illegal .opcodeUnassigned

/-! ### The step -/

/-- A write of any word to CMD runs the issue procedure, which is `exec` of the command where the word decodes to one; a
completion step is the engine's. Around them the step takes the input from the list and counts the access (log entries 4 and 6). -/
def Obligations.StepRunsTheDecodedCommand : Prop :=
  (∀ (s : State) (w : Word) (i : Instr) (rest : List HostInput),
    s.line = .running → engineTurn s = false → s.input = .write .cmd w :: rest → decode w = .command i →
      step s = exec i { s with input := rest, busyLeft := s.busyLeft - 1 }) ∧
    (∀ (s : State) (w : Word) (rest : List HostInput),
      s.line = .running → engineTurn s = false → s.input = .write .cmd w :: rest →
        step s = portWrite .cmd w { s with input := rest, busyLeft := s.busyLeft - 1 }) ∧
    ∀ s : State, engineTurn s = true → step s = engineStep s

/-- The host's interface: a command word placed by `withFetchWord` is the one the very next step runs (log entry 6). -/
def Obligations.PlacedWordRunsInTheNextStep : Prop :=
  ∀ (s : State) (i : Instr), step (s.withFetchWord 32 (encode i).toNat) = exec i { s with line := .running }

/-- R53: a completion step occurs only while a command is pending, and the step after it is not another one. -/
def Obligations.AtMostOneCompletionBetweenAccesses : Prop :=
  (∀ s : State, engineTurn s = true → s.pend ≠ none) ∧
    ∀ s t : State, engineTurn s = true → step s = .next t →
      engineTurn t = false ∧ t.input = s.input ∧ t.observed = s.observed

/-- R47, R48: a read changes no state of the block; a write to any register but CMD changes none. -/
def Obligations.ReadsAndOtherWritesHaveNoEffect : Prop :=
  (∀ (s : State) (r : HostReg) (rest : List HostInput),
    s.line = .running → engineTurn s = false → s.input = .read r :: rest →
      step s = .next { s with input := rest, busyLeft := s.busyLeft - 1,
                              observed := s.observed ++ [.value r (readReg r s)] }) ∧
    (∀ (s : State) (r : HostReg) (w : Word) (rest : List HostInput),
      s.line = .running → engineTurn s = false → r ≠ .cmd → s.input = .write r w :: rest →
        step s = .next { s with input := rest, busyLeft := s.busyLeft - 1 }) ∧
    ∀ s : State, readReg .cmd s = 0x00000000 ∧ readReg .reserved7 s = 0x00000000

/-- R48, R124: in the host's turn only a write to CMD and the reset input change the block's state, and a loss of power,
which leaves it free (R123; that it is free is log entry 10). -/
def Obligations.OnlyCmdWritesAndResetChangeTheBlock : Prop :=
  ∀ s t : State, engineTurn s = false → step s = .next t →
    sameBlock t s ∨
      (∃ e rest w, s.input = e :: rest ∧ cmdWord Config.params e = some w) ∨
      (∃ rest, s.input = .resetAssert :: rest ∧ blockReset t) ∨
      (losesPower s ∧ t.line = .unpowered)

/-- R29, R33, R34, R36, R37: which step writes KEY, SB, GEN, ACC and DOUT. Every other change is a reset, or a loss of
power, of whose step the statement says nothing more (R123, log entry 10). -/
def Obligations.WhichCompletionWritesWhichState : Prop :=
  ∀ s t : State, step s = .next t → blockReset t ∨ (losesPower s ∧ t.line = .unpowered) ∨
    ((t.key ≠ s.key → engineTurn s = true ∧ ∃ b, s.pend = some (.keyPush b) ∧ t.key = s.key ++ [b]) ∧
      (t.sb ≠ s.sb → engineTurn s = true ∧ s.pend = some .expand) ∧
      (t.gen ≠ s.gen → engineTurn s = true ∧
        (s.pend = some .seed ∨ s.pend = some .prime ∨ ∃ b, s.pend = some (.xform b))) ∧
      (t.acc ≠ s.acc → engineTurn s = true ∧ (s.pend = some .prime ∨ ∃ b, s.pend = some (.xform b))) ∧
      (t.dout ≠ s.dout → engineTurn s = true ∧ ∃ b, s.pend = some (.xform b)))

/-- R32: no transition leads backward. A step that does not reset the block keeps PHASE, moves it forward, or enters
FAULT; a loss of power, which leaves PHASE free, aside (R123, log entry 10). -/
def Obligations.PhaseNeverMovesBackward : Prop :=
  ∀ s t : State, BlockInv Config.params s → step s = .next t →
    blockReset t ∨ (losesPower s ∧ t.line = .unpowered) ∨ s.phase.rank ≤ t.phase.rank

/-! ### Issue and faults -/

/-- R105: the whole issue procedure of a write of any word to CMD, in the order of its checks. -/
def Obligations.CmdWriteFollowsTheIssueProcedure : Prop :=
  ∀ (w : Word) (s : State),
    (decode w = .command .srst →
      ∃ t, portWrite .cmd w s = .next t ∧ blockReset t ∧ t.line = s.line ∧ t.input = s.input ∧
        t.observed = s.observed ∧ t.accepted = s.accepted ∧ t.powerLosses = s.powerLosses) ∧
    (decode w ≠ .command .srst → s.phase = .fault → portWrite .cmd w s = .next s) ∧
    (decode w ≠ .command .srst → s.phase ≠ .fault → s.pend ≠ none →
      portWrite .cmd w s = .next { s with pend := none, busyLeft := 0, phase := .fault, errcode := .cmdWhileBusy }) ∧
    (∀ why, decode w = .illegal why → s.phase ≠ .fault → s.pend = none →
      portWrite .cmd w s = .next { s with pend := none, busyLeft := 0, phase := .fault, errcode := .illegalCmd }) ∧
    (∀ p : Pending, decode w = .command p.command → s.phase ≠ .fault → s.pend = none → ¬ tableLegal p s.phase →
      portWrite .cmd w s = .next { s with pend := none, busyLeft := 0, phase := .fault, errcode := .order }) ∧
    (decode w = .command .expand → s.phase = .idle → s.pend = none → s.key.length = 0 →
      portWrite .cmd w s = .next { s with pend := none, busyLeft := 0, phase := .fault, errcode := .keyEmpty }) ∧
    (∀ b, decode w = .command (.keyPush b) → s.phase = .idle → s.pend = none →
      s.key.length = Config.params.keyMax →
      portWrite .cmd w s = .next { s with pend := none, busyLeft := 0, phase := .fault, errcode := .keyOverflow }) ∧
    (∀ p : Pending, decode w = .command p.command → tableLegal p s.phase → s.pend = none →
      (p = .expand → s.key.length ≠ 0) → (∀ b, p = .keyPush b → s.key.length < Config.params.keyMax) →
      ∃ n, portWrite .cmd w s = .next { s with pend := some p, busyLeft := n, accepted := s.accepted + 1 })

/-- R40: the table of commands and phases. Outside its column a command is an ORDER fault, and a completion leads to the
phase of its row; SRST leads to IDLE from everywhere. -/
def Obligations.CommandsFollowThePhaseTable : Prop :=
  (∀ (p : Pending) (s : State), s.phase ≠ .fault → s.pend = none →
    (exec p.command s = .next { s with pend := none, busyLeft := 0, phase := .fault, errcode := .order } ↔
      ¬ tableLegal p s.phase)) ∧
    (∀ (c : Params) (p : Pending) (s t : State), tableLegal p s.phase → complete c p s = .next t →
      t.phase = tableAfter p ∧ t.pend = none) ∧
    ∀ s : State, ∃ t, exec .srst s = .next t ∧ t.phase = .idle

/-- R115: in FAULT every word but SRST's is ignored. -/
def Obligations.FaultIgnoresEveryWordButSrst : Prop :=
  ∀ (w : Word) (s : State), s.phase = .fault → decode w ≠ .command .srst → portWrite .cmd w s = .next s

/-- R114, R115, R116: out of FAULT a step leads only by SRST or the reset input, and then every piece of state is at its
reset value; any other step keeps the whole block, ERRCODE with it. A loss of power, which ends the state itself, is told
apart: the block is unpowered after it, and what its registers then hold is the model's free value (R123, log entry 10). -/
def Obligations.OnlySrstAndHardResetLeaveFault : Prop :=
  ∀ s t : State, s.phase = .fault → s.pend = none → step s = .next t →
    sameBlock t s ∨
      (blockReset t ∧ ((∃ e rest w, s.input = e :: rest ∧ cmdWord Config.params e = some w ∧
          decode w = .command .srst) ∨ ∃ rest, s.input = .resetAssert :: rest)) ∨
      (losesPower s ∧ t.line = .unpowered)

/-- R109: the codes of STATUS.ERRCODE. -/
def Obligations.ErrorCodesAreThoseOfTheTable : Prop :=
  ∀ s : State, (readReg .status s).extractLsb' 8 8 =
    match s.errcode with
    | .none => 0x00#8
    | .illegalCmd => 0x01#8
    | .order => 0x02#8
    | .keyEmpty => 0x03#8
    | .keyOverflow => 0x04#8
    | .cmdWhileBusy => 0x05#8

/-- R103: a completion step of a state that meets the invariant never stops and raises no fault. -/
def Obligations.CompletionNeverFaults : Prop :=
  ∀ s : State, BlockInv Config.params s → s.pend ≠ none →
    ∃ t, engineStep s = .next t ∧ t.pend = none ∧ t.phase ≠ .fault ∧ t.errcode = .none

/-! ### The commands, from the write to the completion -/

/-- R80: KEY_PUSH, its faults and its effect. -/
def Obligations.KeyPushAppendsItsByte : Prop :=
  (∀ b : Byte, encode (.keyPush b) = 0x01000000#32 ||| b.setWidth 32) ∧ (∀ (b : Byte) (s : State), s.phase = .idle → s.pend = none → s.key.length < Config.params.keyMax →
    ∃ n, exec (.keyPush b) s =
        .next { s with pend := some (.keyPush b), busyLeft := n, accepted := s.accepted + 1 } ∧
      engineStep { s with pend := some (.keyPush b), busyLeft := n, accepted := s.accepted + 1 } =
        .next { s with key := s.key ++ [b], pend := none, busyLeft := 0, accepted := s.accepted + 1 }) ∧
    (∀ (b : Byte) (s : State), s.phase ≠ .fault → s.pend = none → s.phase ≠ .idle →
      exec (.keyPush b) s =
        .next { s with pend := none, busyLeft := 0, phase := .fault, errcode := .order }) ∧
    ∀ (b : Byte) (s : State), s.phase = .idle → s.pend = none → s.key.length = Config.params.keyMax →
      exec (.keyPush b) s =
        .next { s with pend := none, busyLeft := 0, phase := .fault, errcode := .keyOverflow }

/-- R81: EXPAND fills SB with the key schedule of KEY and writes nothing else but PHASE; its faults. -/
def Obligations.ExpandFillsTheSeedBuffer : Prop :=
  encode .expand = 0x02000000 ∧ (∀ s : State, s.phase = .idle → s.pend = none → s.key.length ≠ 0 → Memory.wf s.sb →
    ∃ n sb, exec .expand s = .next { s with pend := some .expand, busyLeft := n, accepted := s.accepted + 1 } ∧
      engineStep { s with pend := some .expand, busyLeft := n, accepted := s.accepted + 1 } =
        .next { s with sb := sb, phase := .expanded, pend := none, busyLeft := 0, accepted := s.accepted + 1 } ∧
      sb.readBytes 0 Config.params.seedWidth = seedBytes Config.params s.key ∧ Memory.wf sb ∧
      ∀ a, Config.params.seedWidth ≤ a → sb.read a = s.sb.read a) ∧
    (∀ s : State, s.phase ≠ .fault → s.pend = none → s.phase ≠ .idle →
      exec .expand s = .next { s with pend := none, busyLeft := 0, phase := .fault, errcode := .order }) ∧
    ∀ s : State, s.phase = .idle → s.pend = none → s.key.length = 0 →
      exec .expand s = .next { s with pend := none, busyLeft := 0, phase := .fault, errcode := .keyEmpty }

/-- R95: SEED replaces GEN in full by GenSeed(words(SB)) and writes nothing else but PHASE; its fault. -/
def Obligations.SeedReplacesTheGenerator : Prop :=
  encode .seed = 0x03000000 ∧ (∀ s : State, s.phase = .expanded → s.pend = none →
    ∃ n, exec .seed s = .next { s with pend := some .seed, busyLeft := n, accepted := s.accepted + 1 } ∧
      engineStep { s with pend := some .seed, busyLeft := n, accepted := s.accepted + 1 } =
        .next { s with gen := some (Config.params.genSeed (seedWords Config.params s.sb)), phase := .seeded,
                       pend := none, busyLeft := 0, accepted := s.accepted + 1 }) ∧
    ∀ s : State, s.phase ≠ .fault → s.pend = none → s.phase ≠ .expanded →
      exec .seed s = .next { s with pend := none, busyLeft := 0, phase := .fault, errcode := .order }

/-- R96, R97: PRIME leaves the product of N_PRIME odd multipliers in ACC and the generator N_PRIME steps on, and writes
nothing else but PHASE; its fault. -/
def Obligations.PrimeMultipliesAllWarmUpWords : Prop :=
  encode .prime = 0x04000000 ∧ (∀ (s : State) (g : GenState), s.phase = .seeded → s.pend = none → s.gen = some g →
    ∃ n, exec .prime s = .next { s with pend := some .prime, busyLeft := n, accepted := s.accepted + 1 } ∧
      engineStep { s with pend := some .prime, busyLeft := n, accepted := s.accepted + 1 } =
        .next { s with acc := accAfter Config.params g Config.params.nPrime,
                       gen := some (genAfter Config.params g Config.params.nPrime), phase := .primed,
                       pend := none, busyLeft := 0, accepted := s.accepted + 1 }) ∧
    ∀ s : State, s.phase ≠ .fault → s.pend = none → s.phase ≠ .seeded →
      exec .prime s = .next { s with pend := none, busyLeft := 0, phase := .fault, errcode := .order }

/-- R99: XFORM outputs the keystream byte of ACC as it was, XORed with its operand, makes one round, and writes nothing
else but PHASE; its fault. -/
def Obligations.XformOutputsTheTransformedByte : Prop :=
  (∀ b : Byte, encode (.xform b) = 0x05000000#32 ||| b.setWidth 32) ∧ (∀ (b : Byte) (s : State) (g : GenState), s.phase = .primed ∨ s.phase = .streaming → s.pend = none →
    s.gen = some g →
    ∃ n, exec (.xform b) s = .next { s with pend := some (.xform b), busyLeft := n, accepted := s.accepted + 1 } ∧
      engineStep { s with pend := some (.xform b), busyLeft := n, accepted := s.accepted + 1 } =
        .next { s with dout := (s.acc.extractLsb' 24 8 ^^^ b).setWidth 32,
                       acc := s.acc * ((Config.params.genNext g).1 ||| 0x00000001),
                       gen := some (Config.params.genNext g).2, phase := .streaming,
                       pend := none, busyLeft := 0, accepted := s.accepted + 1 }) ∧
    ∀ (b : Byte) (s : State), s.phase = .idle ∨ s.phase = .expanded ∨ s.phase = .seeded → s.pend = none →
      exec (.xform b) s = .next { s with pend := none, busyLeft := 0, phase := .fault, errcode := .order }

/-- R107: SRST sets every piece of the block's state to its reset value at its write, whatever the state was; a second
one changes nothing; a pending command is gone. -/
def Obligations.SrstResetsTheWholeBlock : Prop :=
  encode .srst = 0xFF000000 ∧
    (∀ w : Word, w.extractLsb' 24 8 = 0xFF → w ≠ 0xFF000000 → ∃ why, decode w = .illegal why) ∧
    ∀ s : State, ∃ t, exec .srst s = .next t ∧ blockReset t ∧ t.line = s.line ∧ t.input = s.input ∧
    t.observed = s.observed ∧ t.busyLeft = 0 ∧ t.accepted = s.accepted ∧ t.powerLosses = s.powerLosses ∧ exec .srst t = .next t ∧
    engineTurn t = false ∧ readReg .status t = 0x00000000 ∧ readReg .dout t = 0x00000000 ∧
    readReg .keylen t = 0x00000000

/-- R54, R129: while a command that was accepted is pending, every register but STATUS reads as before it, and STATUS
differs in BUSY alone. -/
def Obligations.PendingCommandShowsOnlyBusy : Prop :=
  ∀ (p : Pending) (s t : State), s.pend = none → exec p.command s = .next t → t.pend = some p →
    (∀ r, r ≠ .status → readReg r t = readReg r s) ∧ readReg .status t = readReg .status s ||| 0x00000001

/-! ### The key schedule -/

/-- R86: the closed form of KS, the number of digest calls and their inputs; SB outside [0, W) is untouched. -/
def Obligations.KeyScheduleIsTheDigestChain : Prop :=
  (∀ (c : Params) (key : List Byte) (sb : Memory), Memory.wf sb →
    ∃ r, ks c key sb = some r ∧
      r.sb.readBytes 0 c.seedWidth = (digestChain c key (digestCalls c)).take c.seedWidth ∧
      r.inputs = (List.range (digestCalls c)).map (digestInput c key) ∧
      Memory.wf r.sb ∧ ∀ a, c.seedWidth ≤ a → r.sb.read a = sb.read a) ∧
    (∀ (c : Params) (key : List Byte) (k : Nat), 1 ≤ k → (digestInput c key k).length = k * c.digestLen) ∧
    (∀ c : Params, c.seedWidth ≤ digestCalls c * c.digestLen ∧
      ∀ m, c.seedWidth ≤ m * c.digestLen → digestCalls c ≤ m) ∧
    ∀ c : Params, c.seedWidth = 2496 → c.digestLen = 64 → digestCalls c = 39

/-- R90: SB after KS is a function of the passphrase and of D, W and Digest alone; what it held before, and every other
parameter, has no effect. -/
def Obligations.KeyScheduleDependsOnKeyAndDigestAlone : Prop :=
  ∀ (c c' : Params) (key : List Byte) (sb sb' : Memory),
    c.seedWidth = c'.seedWidth → c.digestLen = c'.digestLen → c.digestByte = c'.digestByte →
    Memory.wf sb → Memory.wf sb' → (∀ x ∈ sb, x.1 < c.seedWidth) → (∀ x ∈ sb', x.1 < c'.seedWidth) →
      ks c key sb = ks c' key sb'

/-- R84: where one digest covers SB, there is one digest call, and SB is its first W bytes. -/
def Obligations.OneDigestCallWhereItCoversTheBuffer : Prop :=
  ∀ (c : Params) (key : List Byte) (sb : Memory), Memory.wf sb → c.seedWidth ≤ c.digestLen →
    ∃ r, ks c key sb = some r ∧ r.inputs = [key] ∧
      r.sb.readBytes 0 c.seedWidth = (digest c key).take c.seedWidth

/-- R85: where W is no multiple of D, the last W mod D bytes are the head of the digest of all the bytes before them. -/
def Obligations.LastDigestIsCopiedInPart : Prop :=
  ∀ (c : Params) (key : List Byte) (sb : Memory), Memory.wf sb → c.digestLen < c.seedWidth →
    c.seedWidth % c.digestLen ≠ 0 →
    ∃ r, ks c key sb = some r ∧
      r.sb.readBytes (c.seedWidth - c.seedWidth % c.digestLen) (c.seedWidth % c.digestLen) =
        (digest c (r.sb.readBytes 0 (c.seedWidth - c.seedWidth % c.digestLen))).take (c.seedWidth % c.digestLen)

/-- R50: the seed buffer's primitives inside SB, and no value outside. -/
def Obligations.SeedBufferPrimitivesReadBackWhatWasWritten : Prop :=
  (∀ (c : Params) (m : Memory) (a : Nat) (v : List Byte), Memory.wf m → a + v.length ≤ c.seedWidth →
    ∃ m', memWrite c m a v = some m' ∧ memRead c m' a v.length = some v ∧
      ∀ b n, b + n ≤ c.seedWidth → b + n ≤ a ∨ a + v.length ≤ b → memRead c m' b n = memRead c m b n) ∧
    (∀ (c : Params) (m : Memory) (a : Nat) (v : List Byte), c.seedWidth < a + v.length → memWrite c m a v = none) ∧
    ∀ (c : Params) (m : Memory) (a n : Nat), c.seedWidth < a + n → memRead c m a n = none

/-- R49: the word view of the seed buffer in both byte orders. -/
def Obligations.SeedWordsFollowTheSeedOrder : Prop :=
  ∀ (c : Params) (m : Memory),
    (seedWords c m).length = c.seedWidth / 4 ∧
      ∀ i, i < c.seedWidth / 4 → ∃ w, (seedWords c m)[i]? = some w ∧
        (c.seedOrder = .le → ∀ k, k < 4 → w.extractLsb' (8 * k) 8 = m.read (4 * i + k)) ∧
        (c.seedOrder = .be → ∀ k, k < 4 → w.extractLsb' (8 * k) 8 = m.read (4 * i + (3 - k)))

/-! ### The accumulator and the keystream -/

/-- R92: the keystream byte is the most significant byte of ACC. -/
def Obligations.KeystreamByteIsTheTopByte : Prop :=
  ∀ acc : Word, (ksByte acc).toNat = acc.toNat / 2 ^ 24

/-- R93: one round takes one generator step and multiplies modulo 2^32 by the generator word with bit 0 set; for each
generator word this is a bijection of the accumulator. -/
def Obligations.RoundIsAnOddMultiplication : Prop :=
  (∀ (c : Params) (acc : Word) (g : GenState),
    (accRound c acc g).1.toNat = acc.toNat * ((c.genNext g).1 ||| 0x00000001).toNat % 2 ^ 32 ∧
      (accRound c acc g).2 = (c.genNext g).2) ∧
    ∀ g : Word, Function.Bijective fun acc : Word => mul32 acc (oddMultiplier g)

/-- R94: the corner cases of a round. -/
def Obligations.RoundCornerCases : Prop :=
  (∀ acc : Word, mul32 acc (oddMultiplier 0x00000000) = acc ∧ mul32 acc (oddMultiplier 0x00000001) = acc) ∧
    (∀ acc : Word, (mul32 acc (oddMultiplier 0xFFFFFFFF)).toNat = (2 ^ 32 - acc.toNat) % 2 ^ 32) ∧
    (∀ g : Word, oddMultiplier (g ^^^ 0x00000001) = oddMultiplier g) ∧
    mul32 0x80000001 0x80000001 = 0x00000001 ∧ mul32 0x00000003 0xAAAAAAAB = 0x00000001 ∧
    oddMultiplier 0x80000000 = 0x80000001

/-- R100, R102: from any place in the keystream, a sequence of XFORMs outputs each input byte XORed with the keystream
byte of its place, and leaves the generator one step further for each. -/
def Obligations.StreamBytesComeFromTheirPlaces : Prop :=
  ∀ (s : State) (n : Nat) (m : List Byte), ready s → atPosition Config.params (Config.params.nPrime + n) s →
    ∃ o t, transform m s = some (o, t) ∧ o.length = m.length ∧
      (∀ (k : Nat) (b : Byte), m[k]? = some b →
        o[k]? = some (b ^^^ ksByte (accAfter Config.params
          (Config.params.genSeed (seedWords Config.params s.sb)) (Config.params.nPrime + n + k)))) ∧
      ready t ∧ t.sb = s.sb ∧ t.key = s.key ∧
      atPosition Config.params (Config.params.nPrime + n + m.length) t

/-- R101: two sessions primed from the same passphrase: what the first encrypts, the second decrypts. -/
def Obligations.SecondSessionDecryptsTheFirst : Prop :=
  ∀ (s s' : State) (m : List Byte),
    BlockInv Config.params s → KeystreamInv Config.params s → BlockInv Config.params s' → KeystreamInv Config.params s' →
    s.phase = .primed → s.pend = none → s'.phase = .primed → s'.pend = none → s.key = s'.key →
      ∃ o t t', transform m s = some (o, t) ∧ transform o s' = some (m, t')

/-- R104: the keystream of two sessions primed from the same passphrase is the same, whatever their inputs. Nothing else
of the two states is assumed equal, so whatever timing led to them is left open. -/
def Obligations.KeystreamDependsOnThePassphraseAlone : Prop :=
  ∀ (s s' : State) (m m' : List Byte),
    BlockInv Config.params s → KeystreamInv Config.params s → BlockInv Config.params s' → KeystreamInv Config.params s' →
    s.phase = .primed → s.pend = none → s'.phase = .primed → s'.pend = none → s.key = s'.key →
    m.length = m'.length →
      ∃ o o' t t', transform m s = some (o, t) ∧ transform m' s' = some (o', t') ∧
        List.zipWith (· ^^^ ·) m o = List.zipWith (· ^^^ ·) m' o'

/-! ### Registers -/

/-- R21 to R23, R31: the constants, in every state. -/
def Obligations.ConstantRegistersShowTheParameters : Prop :=
  ∀ (c : Params) (s : State),
    readRegWith c .id s = 0x4D544B53 ∧
      ((readRegWith c .cfg0 s).extractLsb' 0 16).toNat = c.seedWidth ∧
      ((readRegWith c .cfg0 s).extractLsb' 16 8).toNat = c.digestLen ∧
      ((readRegWith c .cfg0 s).getLsbD 24 = true ↔ c.seedOrder = .be) ∧
      (readRegWith c .cfg0 s).extractLsb' 25 7 = 0 ∧
      (readRegWith c .cfg1 s).toNat = c.nPrime ∧
      readRegWith c .reserved7 s = 0x00000000

/-- R25 to R27: the fields of STATUS. -/
def Obligations.StatusShowsBusyFaultAndState : Prop :=
  (∀ s : State,
    ((readReg .status s).getLsbD 0 = true ↔ s.pend ≠ none) ∧
      ((readReg .status s).getLsbD 1 = true ↔ s.phase = .fault) ∧
      (readReg .status s).extractLsb' 2 2 = 0 ∧
      (readReg .status s).extractLsb' 4 3 =
        (match s.phase with
          | .idle => 0#3
          | .expanded => 1#3
          | .seeded => 2#3
          | .primed => 3#3
          | .streaming => 4#3
          | .fault => 7#3) ∧
      (readReg .status s).getLsbD 7 = false ∧
      (readReg .status s).extractLsb' 16 16 = 0) ∧
    ∀ s : State, BlockInv Config.params s →
      ((readReg .status s).getLsbD 1 = true → (readReg .status s).getLsbD 0 = false) ∧
        ((readReg .status s).extractLsb' 8 8 = 0 ↔ s.phase ≠ .fault)

/-- R30: KEYLEN is the length of the passphrase, which never wraps. -/
def Obligations.KeylenIsTheLengthOfTheKey : Prop :=
  ∀ s : State, BlockInv Config.params s → (readReg .keylen s).toNat = s.key.length

/-- R39: no register shows KEY's bytes, SB, GEN, ACC or which command is pending. -/
def Obligations.NoRegisterShowsTheSecrets : Prop :=
  ∀ s t : State, s.phase = t.phase → s.errcode = t.errcode → (s.pend = none ↔ t.pend = none) →
    s.key.length = t.key.length → s.dout = t.dout → ∀ r : HostReg, readReg r s = readReg r t

/-! ### Waiting, reset input, power, bus, programs -/

/-- R76, R133: WAIT ends. It takes at most the BUSY interval's accesses, the completion and the last read; every read
before the last saw BUSY = 1 and the last sees 0; a pending command has been completed and nothing else has changed in
the block. That WAIT is one input, which stays while BUSY is 1, is the model's choice (log entry 15), and that the BUSY
interval is a finite number its form of weak fairness (log entry 4). -/
def Obligations.WaitEndsAfterTheCompletion : Prop :=
  ∀ (s : State) (rest : List HostInput), BlockInv Config.params s → s.line = .running → s.input = .wait :: rest →
    ∃ (n : Nat) (t : State) (before : List Observation),
      n ≤ s.busyLeft + 2 ∧ Sys2Proof.core.run n s = .next t ∧ t.input = rest ∧ t.line = s.line ∧ t.pend = none ∧
      t.observed = s.observed ++ before ++ [.value .status (readReg .status t)] ∧
      (readReg .status t).getLsbD 0 = false ∧
      (∀ o ∈ before, ∃ v, o = .value .status v ∧ v.getLsbD 0 = true) ∧
      (s.pend = none → sameBlock t s) ∧
      ∀ p, s.pend = some p → ∃ u, complete Config.params p s = .next u ∧ sameBlock t u

/-- R77, R99, R133: ENC at the port. From a primed or streaming session, under any BUSY length, the write of XFORM b, the
WAIT and the read of DOUT end; the read returns the keystream byte XORed with b, and the session stands one round
further. The list of inputs and WAIT as one of them are the model's choice (log entries 6 and 15), and that each BUSY
interval is finite is its form of weak fairness (log entry 4). -/
def Obligations.EncodedByteIsReadBackAtThePort : Prop :=
  ∀ (s : State) (b : Byte) (g : GenState) (rest : List HostInput),
    BlockInv Config.params s → s.line = .running → ready s → s.gen = some g →
    s.input = commandWait (.xform b) ++ .read .dout :: rest →
    ∃ (n : Nat) (t : State) (polls : List Observation),
      Sys2Proof.core.run n s = .next t ∧ t.input = rest ∧
      t.observed = s.observed ++ polls ++ [.value .dout ((s.acc.extractLsb' 24 8 ^^^ b).setWidth 32)] ∧
      (∀ o ∈ polls, ∃ v, o = .value .status v) ∧
      t.phase = .streaming ∧ t.pend = none ∧ t.errcode = s.errcode ∧ t.key = s.key ∧ t.sb = s.sb ∧
      t.acc = s.acc * ((Config.params.genNext g).1 ||| 0x00000001) ∧ t.gen = some (Config.params.genNext g).2 ∧
      t.dout = (s.acc.extractLsb' 24 8 ^^^ b).setWidth 32

/-- R124: the reset input. Asserted, it abandons the pending command and sets every piece of state to its reset value;
while it is asserted no access is accepted (that the access is then lost is the model's choice, log entry 9, for a bus
access with log entry 13 and for a WAIT with log entry 15); released, the block runs from those values. -/
def Obligations.HardResetInput : Prop :=
  (∀ (s : State) (rest : List HostInput), engineTurn s = false → s.input = .resetAssert :: rest →
    ∃ t, step s = .next t ∧ blockReset t ∧ t.line = .inReset ∧ t.input = rest ∧ t.observed = s.observed) ∧
    (∀ (s : State) (e : HostInput) (rest : List HostInput), s.line = .inReset → s.input = e :: rest →
      e.isAccess = true →
      step s = .next { s with input := rest, busyLeft := s.busyLeft - 1, observed := s.observed ++ [.notAccepted] }) ∧
    ∀ (s : State) (rest : List HostInput), s.line = .inReset → s.input = .resetRelease :: rest →
      step s = .next { s with input := rest, busyLeft := s.busyLeft - 1, line := .running }

/-- R123: a loss of power leaves the block unpowered; unpowered it answers no access (the refusal is the model's choice,
log entry 10, for a bus access with log entry 13), and no step but the one that takes the assertion of the reset input
ends that (that the release of a reset held since before the loss does not is the model's choice, log entry 23); that one
leaves every piece of state at its reset value. -/
def Obligations.PowerLossRequiresAHardReset : Prop :=
  (∀ (s : State) (rest : List HostInput), engineTurn s = false → s.input = .powerLoss :: rest →
    ∃ t, step s = .next t ∧ t.line = .unpowered ∧ t.input = rest) ∧
    (∀ (s : State) (e : HostInput) (rest : List HostInput), s.line = .unpowered → s.input = e :: rest →
      e.isAccess = true → step s = .refused .noResetSincePowerUp) ∧
    (∀ s t : State, s.line = .unpowered → (∀ rest, s.input ≠ .resetAssert :: rest) → step s = .next t →
      t.line = .unpowered) ∧
    ∀ (s : State) (rest : List HostInput), s.line = .unpowered → s.input = .resetAssert :: rest →
      ∃ t, step s = .next t ∧ blockReset t ∧ t.line = .inReset

/-- R46: where the port is mapped on a bus, an aligned word access at KSG_BASE + 4*i is the access to register i; any
other access in the window is BRIDGE_SUBWORD's, and in its safe instance the block sees nothing; an access outside the
window stops the model (its choice, log entry 13). A running block's step takes a bus access so. -/
def Obligations.BusAccessesReachTheirRegister : Prop :=
  (∀ (c : Params) (i : BitVec 3) (w : Word) (s : State),
    busReadWith c (c.ksgBase + 4 * i.toNat) 4 s = .next (portRead (HostReg.ofIndex i) s) ∧
      busWriteWith c (c.ksgBase + 4 * i.toNat) 4 w s = portWrite (HostReg.ofIndex i) w s) ∧
    (∀ (c : Params) (off bytes : Nat) (w : Word) (s : State), off < 32 → bytes ≠ 4 ∨ off % 4 ≠ 0 →
      c.bridgeSubword = .busFault →
      busReadWith c (c.ksgBase + off) bytes s = .next { s with observed := s.observed ++ [.busFault] } ∧
        busWriteWith c (c.ksgBase + off) bytes w s = .next { s with observed := s.observed ++ [.busFault] }) ∧
    (∀ (c : Params) (off bytes : Nat) (w : Word) (s : State), off < 32 → bytes ≠ 4 ∨ off % 4 ≠ 0 →
      c.bridgeSubword = .platformDefined →
      busReadWith c (c.ksgBase + off) bytes s = .refused .bridgeSubword ∧
        busWriteWith c (c.ksgBase + off) bytes w s = .refused .bridgeSubword) ∧
    (∀ (c : Params) (addr bytes : Nat) (w : Word) (s : State), addr < c.ksgBase ∨ c.ksgBase + 32 ≤ addr →
      busReadWith c addr bytes s = .fault .busAddressUnmapped ∧
        busWriteWith c addr bytes w s = .fault .busAddressUnmapped) ∧
    (∀ (s : State) (addr bytes : Nat) (rest : List HostInput),
      s.line = .running → engineTurn s = false → s.input = .busRead addr bytes :: rest →
        step s = busReadWith Config.params addr bytes { s with input := rest, busyLeft := s.busyLeft - 1 }) ∧
    ∀ (s : State) (addr bytes : Nat) (w : Word) (rest : List HostInput),
      s.line = .running → engineTurn s = false → s.input = .busWrite addr bytes w :: rest →
        step s = busWriteWith Config.params addr bytes w { s with input := rest, busyLeft := s.busyLeft - 1 }

/-- R20: the 3-bit index selects the eight registers one to one. -/
def Obligations.RegisterIndexSelectsEachRegister : Prop :=
  (∀ r : HostReg, HostReg.ofIndex r.index = r) ∧ (∀ i : BitVec 3, (HostReg.ofIndex i).index = i) ∧
    [HostReg.id, .cfg0, .cfg1, .cmd, .status, .dout, .keylen, .reserved7].map (fun r => r.index.toNat) =
      [0, 1, 2, 3, 4, 5, 6, 7]

/-- R72: each command mnemonic is one write of its word to CMD; a literal outside 0 to 255 is an assembly error. -/
def Obligations.MnemonicsAssembleToTheirWords : Prop :=
  (∀ b, b < 256 → assemble [.keyPush b] = some [.write .cmd (0x01000000#32 ||| (BitVec.ofNat 8 b).setWidth 32)]) ∧
    (∀ b, b < 256 → assemble [.xform b] = some [.write .cmd (0x05000000#32 ||| (BitVec.ofNat 8 b).setWidth 32)]) ∧
    assemble [.expand] = some [.write .cmd 0x02000000#32] ∧
    assemble [.seed] = some [.write .cmd 0x03000000#32] ∧
    assemble [.prime] = some [.write .cmd 0x04000000#32] ∧
    assemble [.srst] = some [.write .cmd 0xFF000000#32] ∧
    ∀ b, 256 ≤ b → assemble [.keyPush b] = none ∧ assemble [.xform b] = none

/-- R74, R75, R77, R78: the pseudo-instructions' expansions. -/
def Obligations.PseudoInstructionsExpand : Prop :=
  assemble [.key []] = some [] ∧
    (∀ ch codes, (∀ x ∈ ch :: codes, x < 128) → assemble [.key (ch :: codes)] = assemble [.keyPush ch, .wait, .key codes]) ∧
    assemble [.setup] = assemble [.expand, .wait, .seed, .wait, .prime, .wait] ∧
    (∀ b, b < 256 → assemble [.enc b] = assemble [.xform b, .wait, .rd .dout] ∧ assemble [.dec b] = assemble [.enc b]) ∧
    assemble [.xstr []] = some [] ∧
    ∀ ch codes, (∀ x ∈ ch :: codes, x < 128) → assemble [.xstr (ch :: codes)] = assemble [.enc ch, .xstr codes]

/-! ### What a loss of power leaves -/

/-- R123: the state is not retained across a loss of power. Whatever two blocks held before it, they hold the same after
it where it is the same loss: nothing of PHASE, ERRCODE, PEND, KEY, SB, GEN, ACC and DOUT goes through. What they then
hold is the model's free value, of which the statement says nothing (log entry 10). -/
def Obligations.PowerLossRetainsNothing : Prop :=
  ∀ s s' t t' : State, losesPower s → losesPower s' → s.powerLosses = s'.powerLosses →
    step s = .next t → step s' = .next t' → sameBlock t t'
end

