-- ==== Sys2Proof/Laws/Memory.lean ====
section
/-! SUPPORT. What the seed buffer's operations do, each said once: a read after a write, the canonical form, and the
bounds of the primitives (20_memory.md R50). -/

namespace Sys2Proof.Machine

/-! ### One byte -/

@[simp] theorem Memory.read_nil (a : Nat) : Memory.read [] a = blankByte := rfl

theorem Memory.read_cons (k : Nat) (b : Byte) (m : Memory) (a : Nat) :
    Memory.read ((k, b) :: m) a = if k = a then b else Memory.read m a := rfl

theorem Memory.wf_nil : Memory.wf [] := by simp [Memory.wf]

theorem Memory.wf_cons (k : Nat) (b : Byte) (m : Memory) :
    Memory.wf ((k, b) :: m) ↔ (∀ x ∈ m, k < x.1) ∧ b ≠ blankByte ∧ Memory.wf m := by
  simp only [Memory.wf, List.pairwise_cons, List.forall_mem_cons]
  tauto

/-- An index that no entry has reads as the reset contents. -/
theorem Memory.read_unlisted (m : Memory) (a : Nat) (h : ∀ x ∈ m, x.1 ≠ a) : m.read a = blankByte := by
  induction m with
  | nil => rfl
  | cons x m ih =>
    rw [Memory.read_cons, if_neg (h x (by simp)), ih fun y hy => h y (by simp [hy])]

/-- An entry of a written memory is an old one, or the byte written. -/
theorem Memory.mem_write {m : Memory} {a : Nat} {v : Byte} {x : Host.Cell} (h : x ∈ m.write a v) :
    x ∈ m ∨ (x = (a, v) ∧ v ≠ blankByte) := by
  induction m with
  | nil =>
    simp only [Memory.write] at h
    split at h <;> simp_all
  | cons y m ih =>
    simp only [Memory.write] at h
    repeat' split at h
    all_goals simp only [List.mem_cons] at h ⊢
    all_goals tauto

theorem Memory.write_wf {m : Memory} (h : m.wf) (a : Nat) (v : Byte) : (m.write a v).wf := by
  induction m with
  | nil =>
    simp only [Memory.write]
    split <;> simp_all [Memory.wf]
  | cons y m ih =>
    obtain ⟨k, b⟩ := y
    obtain ⟨hlt, hb, hm⟩ := (Memory.wf_cons k b m).1 h
    simp only [Memory.write]
    split
    next hak =>
      split
      · exact h
      next hv =>
        refine (Memory.wf_cons a v _).2 ⟨?_, hv, h⟩
        rintro x (_ | ⟨_, hx⟩)
        · exact hak
        · exact hak.trans (hlt x hx)
    next hak =>
      split
      next hka =>
        split
        · exact hm
        next hv => exact (Memory.wf_cons a v m).2 ⟨hka ▸ hlt, hv, hm⟩
      next hka =>
        refine (Memory.wf_cons k b _).2 ⟨?_, hb, ih hm⟩
        intro x hx
        rcases Memory.mem_write hx with hx | ⟨rfl, _⟩
        · exact hlt x hx
        · simp only; omega

/-- A byte just written reads back. -/
theorem Memory.read_write_self {m : Memory} (h : m.wf) (a : Nat) (v : Byte) : (m.write a v).read a = v := by
  induction m with
  | nil =>
    simp only [Memory.write]
    split <;> simp_all [Memory.read]
  | cons y m ih =>
    obtain ⟨k, b⟩ := y
    obtain ⟨hlt, hb, hm⟩ := (Memory.wf_cons k b m).1 h
    simp only [Memory.write]
    split
    next hak =>
      split
      next hv =>
        rw [hv]
        refine Memory.read_unlisted _ a ?_
        rintro x (_ | ⟨_, hx⟩)
        · exact hak.ne'
        · exact (hak.trans (hlt x hx)).ne'
      · simp [Memory.read_cons]
    next hak =>
      split
      next hka =>
        split
        next hv =>
          rw [hv]
          exact Memory.read_unlisted _ a fun x hx => hka ▸ (hlt x hx).ne'
        · simp [Memory.read_cons]
      next hka => rw [Memory.read_cons, if_neg hka, ih hm]

/-- A write leaves every other index alone. -/
theorem Memory.read_write_other (m : Memory) {a i : Nat} (v : Byte) (h : i ≠ a) : (m.write a v).read i = m.read i := by
  induction m with
  | nil =>
    simp only [Memory.write]
    split
    · rfl
    · simp [Memory.read_cons, h.symm]
  | cons y m ih =>
    obtain ⟨k, b⟩ := y
    simp only [Memory.write]
    split
    · split
      · rfl
      · rw [Memory.read_cons, if_neg h.symm]
    · split
      next hka =>
        have hki : ¬ k = i := fun hk => h (hk.symm.trans hka)
        split
        · rw [Memory.read_cons, if_neg hki]
        · rw [Memory.read_cons, if_neg h.symm, Memory.read_cons, if_neg hki]
      · rw [Memory.read_cons, Memory.read_cons, ih]

/-- Two memories in canonical form that read the same everywhere are the same data. -/
theorem Memory.eq_of_read_eq {m n : Memory} (hm : m.wf) (hn : n.wf) (h : ∀ a, m.read a = n.read a) : m = n := by
  induction m generalizing n with
  | nil =>
    cases n with
    | nil => rfl
    | cons y n =>
      obtain ⟨k, b⟩ := y
      have hk := h k
      rw [Memory.read_cons, if_pos rfl] at hk
      exact absurd hk.symm ((Memory.wf_cons k b n).1 hn).2.1
  | cons x m ih =>
    obtain ⟨j, v⟩ := x
    obtain ⟨hjlt, hv, hm'⟩ := (Memory.wf_cons j v m).1 hm
    cases n with
    | nil =>
      have hj := h j
      rw [Memory.read_cons, if_pos rfl] at hj
      exact absurd hj hv
    | cons y n =>
      obtain ⟨k, b⟩ := y
      obtain ⟨hklt, hb, hn'⟩ := (Memory.wf_cons k b n).1 hn
      have hj := h j
      have hk := h k
      rw [Memory.read_cons, Memory.read_cons, if_pos rfl] at hj
      rw [Memory.read_cons, Memory.read_cons, if_pos rfl] at hk
      have hjk : j = k := by
        rcases Nat.lt_trichotomy j k with hlt | heq | hgt
        · rw [if_neg hlt.ne', Memory.read_unlisted n j fun x hx => (hlt.trans (hklt x hx)).ne'] at hj
          exact absurd hj hv
        · exact heq
        · rw [if_neg hgt.ne', Memory.read_unlisted m k fun x hx => (hgt.trans (hjlt x hx)).ne'] at hk
          exact absurd hk.symm hb
      subst hjk
      rw [if_pos rfl] at hj
      subst hj
      congr 1
      refine ih hm' hn' fun a => ?_
      by_cases ha : j = a
      · subst ha
        rw [Memory.read_unlisted m j fun x hx => (hjlt x hx).ne',
          Memory.read_unlisted n j fun x hx => (hklt x hx).ne']
      · have := h a
        rwa [Memory.read_cons, Memory.read_cons, if_neg ha, if_neg ha] at this

/-! ### Sequences of bytes -/

@[simp] theorem Memory.readBytes_length (m : Memory) (a n : Nat) : (m.readBytes a n).length = n := by
  induction n generalizing a with
  | zero => rfl
  | succ n ih => simp [Memory.readBytes, ih]

/-- Byte k of a sequence read from index a is the byte at index a + k. -/
theorem Memory.readBytes_getElem (m : Memory) (a n k : Nat) (h : k < (m.readBytes a n).length) :
    (m.readBytes a n)[k] = m.read (a + k) := by
  induction n generalizing a k with
  | zero => simp at h
  | succ n ih =>
    cases k with
    | zero => rfl
    | succ k =>
      simp only [Memory.readBytes, List.getElem_cons_succ]
      rw [ih, Nat.add_assoc, Nat.add_comm 1 k]

theorem Memory.readBytes_add (m : Memory) (a n k : Nat) :
    m.readBytes a (n + k) = m.readBytes a n ++ m.readBytes (a + n) k := by
  induction n generalizing a with
  | zero => simp [Memory.readBytes]
  | succ n ih =>
    rw [Nat.succ_add]
    simp only [Memory.readBytes, List.cons_append, ih]
    rw [Nat.add_assoc, Nat.add_comm 1 n]

/-- Reading depends on the bytes read alone. -/
theorem Memory.readBytes_congr {m m' : Memory} {a n : Nat} (h : ∀ i, a ≤ i → i < a + n → m.read i = m'.read i) :
    m.readBytes a n = m'.readBytes a n := by
  induction n generalizing a with
  | zero => rfl
  | succ n ih =>
    simp only [Memory.readBytes]
    rw [h a (le_refl a) (by omega), ih fun i h1 h2 => h i (by omega) (by omega)]

theorem Memory.writeBytes_wf {m : Memory} (h : m.wf) (a : Nat) (v : List Byte) : (m.writeBytes a v).wf := by
  induction v generalizing m a with
  | nil => exact h
  | cons b v ih => exact ih (Memory.write_wf h a b) (a + 1)

/-- A sequence written leaves every index outside it alone. -/
theorem Memory.read_writeBytes_outside (m : Memory) (a : Nat) (v : List Byte) (i : Nat)
    (h : i < a ∨ a + v.length ≤ i) : (m.writeBytes a v).read i = m.read i := by
  induction v generalizing m a with
  | nil => rfl
  | cons b v ih =>
    simp only [List.length_cons] at h
    simp only [Memory.writeBytes]
    rw [ih (m.write a b) (a + 1) (by omega), Memory.read_write_other m b (by omega)]

/-- A sequence just written reads back. -/
theorem Memory.readBytes_writeBytes {m : Memory} (h : m.wf) (a : Nat) (v : List Byte) :
    (m.writeBytes a v).readBytes a v.length = v := by
  induction v generalizing m a with
  | nil => rfl
  | cons b v ih =>
    simp only [Memory.writeBytes, List.length_cons, Memory.readBytes]
    rw [Memory.read_writeBytes_outside _ _ _ _ (by omega), Memory.read_write_self h, ih (Memory.write_wf h a b)]

/-- An entry of a memory a sequence was written to is an old one, or lies where the sequence was written. -/
theorem Memory.mem_writeBytes {m : Memory} {a : Nat} {v : List Byte} {x : Host.Cell} (h : x ∈ m.writeBytes a v) :
    x ∈ m ∨ (a ≤ x.1 ∧ x.1 < a + v.length) := by
  induction v generalizing m a with
  | nil => exact .inl h
  | cons b v ih =>
    simp only [List.length_cons]
    rcases ih h with h | h
    · rcases Memory.mem_write h with h | ⟨rfl, _⟩
      · exact .inl h
      · exact .inr ⟨le_refl _, by simp only; omega⟩
    · exact .inr ⟨by omega, by omega⟩

/-! ### The primitives of R50 -/

/-- MemRead answers exactly inside SB. -/
theorem memRead_eq_some (c : Params) (m : Memory) (a n : Nat) (v : List Byte) :
    memRead c m a n = some v ↔ a + n ≤ c.seedWidth ∧ m.readBytes a n = v := by
  unfold memRead
  split <;> simp_all

/-- MemWrite answers exactly inside SB. -/
theorem memWrite_eq_some (c : Params) (m m' : Memory) (a : Nat) (v : List Byte) :
    memWrite c m a v = some m' ↔ a + v.length ≤ c.seedWidth ∧ m.writeBytes a v = m' := by
  unfold memWrite
  split <;> simp_all

/-- MemWrite keeps the canonical form, keeps every entry inside SB, leaves the rest alone, and reads back. -/
theorem memWrite_spec {c : Params} {m m' : Memory} {a : Nat} {v : List Byte} (h : memWrite c m a v = some m')
    (hm : m.wf) (hin : ∀ x ∈ m, x.1 < c.seedWidth) :
    m'.wf ∧ (∀ x ∈ m', x.1 < c.seedWidth) ∧ m'.readBytes a v.length = v ∧
      ∀ i, i < a ∨ a + v.length ≤ i → m'.read i = m.read i := by
  obtain ⟨hb, rfl⟩ := (memWrite_eq_some c m m' a v).1 h
  refine ⟨Memory.writeBytes_wf hm a v, fun x hx => ?_, Memory.readBytes_writeBytes hm a v,
    fun i hi => Memory.read_writeBytes_outside m a v i hi⟩
  rcases Memory.mem_writeBytes hx with hx | hx
  · exact hin x hx
  · omega

end Sys2Proof.Machine
end

