-- ==== Sys2Proof/Laws/State.lean ====
section
/-! SUPPORT. One lemma per field per update of State, true by `rfl`: no later proof unfolds a record update. -/

namespace Sys2Proof.Machine

/-! ### `keyAppend` -/

@[simp] theorem keyAppend_phase (b : Byte) (s : State) : (keyAppend b s).phase = s.phase := rfl
@[simp] theorem keyAppend_errcode (b : Byte) (s : State) : (keyAppend b s).errcode = s.errcode := rfl
@[simp] theorem keyAppend_pend (b : Byte) (s : State) : (keyAppend b s).pend = s.pend := rfl
@[simp] theorem keyAppend_key (b : Byte) (s : State) : (keyAppend b s).key = s.key ++ [b] := rfl
@[simp] theorem keyAppend_sb (b : Byte) (s : State) : (keyAppend b s).sb = s.sb := rfl
@[simp] theorem keyAppend_gen (b : Byte) (s : State) : (keyAppend b s).gen = s.gen := rfl
@[simp] theorem keyAppend_acc (b : Byte) (s : State) : (keyAppend b s).acc = s.acc := rfl
@[simp] theorem keyAppend_dout (b : Byte) (s : State) : (keyAppend b s).dout = s.dout := rfl
@[simp] theorem keyAppend_line (b : Byte) (s : State) : (keyAppend b s).line = s.line := rfl
@[simp] theorem keyAppend_input (b : Byte) (s : State) : (keyAppend b s).input = s.input := rfl
@[simp] theorem keyAppend_observed (b : Byte) (s : State) : (keyAppend b s).observed = s.observed := rfl
@[simp] theorem keyAppend_busyLeft (b : Byte) (s : State) : (keyAppend b s).busyLeft = s.busyLeft := rfl
@[simp] theorem keyAppend_accepted (b : Byte) (s : State) : (keyAppend b s).accepted = s.accepted := rfl
@[simp] theorem keyAppend_powerLosses (b : Byte) (s : State) : (keyAppend b s).powerLosses = s.powerLosses := rfl

/-! ### `resetBlock` -/

@[simp] theorem resetBlock_phase (s : State) : (resetBlock s).phase = .idle := rfl
@[simp] theorem resetBlock_errcode (s : State) : (resetBlock s).errcode = .none := rfl
@[simp] theorem resetBlock_pend (s : State) : (resetBlock s).pend = none := rfl
@[simp] theorem resetBlock_key (s : State) : (resetBlock s).key = [] := rfl
@[simp] theorem resetBlock_sb (s : State) : (resetBlock s).sb = [] := rfl
@[simp] theorem resetBlock_gen (s : State) : (resetBlock s).gen = none := rfl
@[simp] theorem resetBlock_acc (s : State) : (resetBlock s).acc = 0x00000001 := rfl
@[simp] theorem resetBlock_dout (s : State) : (resetBlock s).dout = 0x00000000 := rfl
@[simp] theorem resetBlock_line (s : State) : (resetBlock s).line = s.line := rfl
@[simp] theorem resetBlock_input (s : State) : (resetBlock s).input = s.input := rfl
@[simp] theorem resetBlock_observed (s : State) : (resetBlock s).observed = s.observed := rfl
@[simp] theorem resetBlock_busyLeft (s : State) : (resetBlock s).busyLeft = 0 := rfl
@[simp] theorem resetBlock_accepted (s : State) : (resetBlock s).accepted = s.accepted := rfl
@[simp] theorem resetBlock_powerLosses (s : State) : (resetBlock s).powerLosses = s.powerLosses := rfl

/-! ### `raiseFault` -/

@[simp] theorem raiseFault_phase (e : ErrCode) (s : State) : (raiseFault e s).phase = .fault := rfl
@[simp] theorem raiseFault_errcode (e : ErrCode) (s : State) : (raiseFault e s).errcode = e := rfl
@[simp] theorem raiseFault_pend (e : ErrCode) (s : State) : (raiseFault e s).pend = none := rfl
@[simp] theorem raiseFault_key (e : ErrCode) (s : State) : (raiseFault e s).key = s.key := rfl
@[simp] theorem raiseFault_sb (e : ErrCode) (s : State) : (raiseFault e s).sb = s.sb := rfl
@[simp] theorem raiseFault_gen (e : ErrCode) (s : State) : (raiseFault e s).gen = s.gen := rfl
@[simp] theorem raiseFault_acc (e : ErrCode) (s : State) : (raiseFault e s).acc = s.acc := rfl
@[simp] theorem raiseFault_dout (e : ErrCode) (s : State) : (raiseFault e s).dout = s.dout := rfl
@[simp] theorem raiseFault_line (e : ErrCode) (s : State) : (raiseFault e s).line = s.line := rfl
@[simp] theorem raiseFault_input (e : ErrCode) (s : State) : (raiseFault e s).input = s.input := rfl
@[simp] theorem raiseFault_observed (e : ErrCode) (s : State) : (raiseFault e s).observed = s.observed := rfl
@[simp] theorem raiseFault_busyLeft (e : ErrCode) (s : State) : (raiseFault e s).busyLeft = 0 := rfl
@[simp] theorem raiseFault_accepted (e : ErrCode) (s : State) : (raiseFault e s).accepted = s.accepted := rfl
@[simp] theorem raiseFault_powerLosses (e : ErrCode) (s : State) : (raiseFault e s).powerLosses = s.powerLosses := rfl

/-! ### `accept` -/

@[simp] theorem accept_phase (c : Params) (p : Pending) (s : State) : (accept c p s).phase = s.phase := rfl
@[simp] theorem accept_errcode (c : Params) (p : Pending) (s : State) : (accept c p s).errcode = s.errcode := rfl
@[simp] theorem accept_pend (c : Params) (p : Pending) (s : State) : (accept c p s).pend = some p := rfl
@[simp] theorem accept_key (c : Params) (p : Pending) (s : State) : (accept c p s).key = s.key := rfl
@[simp] theorem accept_sb (c : Params) (p : Pending) (s : State) : (accept c p s).sb = s.sb := rfl
@[simp] theorem accept_gen (c : Params) (p : Pending) (s : State) : (accept c p s).gen = s.gen := rfl
@[simp] theorem accept_acc (c : Params) (p : Pending) (s : State) : (accept c p s).acc = s.acc := rfl
@[simp] theorem accept_dout (c : Params) (p : Pending) (s : State) : (accept c p s).dout = s.dout := rfl
@[simp] theorem accept_line (c : Params) (p : Pending) (s : State) : (accept c p s).line = s.line := rfl
@[simp] theorem accept_input (c : Params) (p : Pending) (s : State) : (accept c p s).input = s.input := rfl
@[simp] theorem accept_observed (c : Params) (p : Pending) (s : State) : (accept c p s).observed = s.observed := rfl
@[simp] theorem accept_busyLeft (c : Params) (p : Pending) (s : State) : (accept c p s).busyLeft = c.busyLength s.accepted := rfl
@[simp] theorem accept_accepted (c : Params) (p : Pending) (s : State) : (accept c p s).accepted = s.accepted + 1 := rfl
@[simp] theorem accept_powerLosses (c : Params) (p : Pending) (s : State) : (accept c p s).powerLosses = s.powerLosses := rfl

/-! ### `finish` -/

@[simp] theorem finish_phase (s : State) : (finish s).phase = s.phase := rfl
@[simp] theorem finish_errcode (s : State) : (finish s).errcode = s.errcode := rfl
@[simp] theorem finish_pend (s : State) : (finish s).pend = none := rfl
@[simp] theorem finish_key (s : State) : (finish s).key = s.key := rfl
@[simp] theorem finish_sb (s : State) : (finish s).sb = s.sb := rfl
@[simp] theorem finish_gen (s : State) : (finish s).gen = s.gen := rfl
@[simp] theorem finish_acc (s : State) : (finish s).acc = s.acc := rfl
@[simp] theorem finish_dout (s : State) : (finish s).dout = s.dout := rfl
@[simp] theorem finish_line (s : State) : (finish s).line = s.line := rfl
@[simp] theorem finish_input (s : State) : (finish s).input = s.input := rfl
@[simp] theorem finish_observed (s : State) : (finish s).observed = s.observed := rfl
@[simp] theorem finish_busyLeft (s : State) : (finish s).busyLeft = 0 := rfl
@[simp] theorem finish_accepted (s : State) : (finish s).accepted = s.accepted := rfl
@[simp] theorem finish_powerLosses (s : State) : (finish s).powerLosses = s.powerLosses := rfl

/-! ### `portRead` -/

@[simp] theorem portRead_phase (r : HostReg) (s : State) : (portRead r s).phase = s.phase := rfl
@[simp] theorem portRead_errcode (r : HostReg) (s : State) : (portRead r s).errcode = s.errcode := rfl
@[simp] theorem portRead_pend (r : HostReg) (s : State) : (portRead r s).pend = s.pend := rfl
@[simp] theorem portRead_key (r : HostReg) (s : State) : (portRead r s).key = s.key := rfl
@[simp] theorem portRead_sb (r : HostReg) (s : State) : (portRead r s).sb = s.sb := rfl
@[simp] theorem portRead_gen (r : HostReg) (s : State) : (portRead r s).gen = s.gen := rfl
@[simp] theorem portRead_acc (r : HostReg) (s : State) : (portRead r s).acc = s.acc := rfl
@[simp] theorem portRead_dout (r : HostReg) (s : State) : (portRead r s).dout = s.dout := rfl
@[simp] theorem portRead_line (r : HostReg) (s : State) : (portRead r s).line = s.line := rfl
@[simp] theorem portRead_input (r : HostReg) (s : State) : (portRead r s).input = s.input := rfl
@[simp] theorem portRead_observed (r : HostReg) (s : State) : (portRead r s).observed = s.observed ++ [.value r (readReg r s)] := rfl
@[simp] theorem portRead_busyLeft (r : HostReg) (s : State) : (portRead r s).busyLeft = s.busyLeft := rfl
@[simp] theorem portRead_accepted (r : HostReg) (s : State) : (portRead r s).accepted = s.accepted := rfl
@[simp] theorem portRead_powerLosses (r : HostReg) (s : State) : (portRead r s).powerLosses = s.powerLosses := rfl

/-! ### `assertReset` -/

@[simp] theorem assertReset_phase (s : State) : (assertReset s).phase = .idle := rfl
@[simp] theorem assertReset_errcode (s : State) : (assertReset s).errcode = .none := rfl
@[simp] theorem assertReset_pend (s : State) : (assertReset s).pend = none := rfl
@[simp] theorem assertReset_key (s : State) : (assertReset s).key = [] := rfl
@[simp] theorem assertReset_sb (s : State) : (assertReset s).sb = [] := rfl
@[simp] theorem assertReset_gen (s : State) : (assertReset s).gen = none := rfl
@[simp] theorem assertReset_acc (s : State) : (assertReset s).acc = 0x00000001 := rfl
@[simp] theorem assertReset_dout (s : State) : (assertReset s).dout = 0x00000000 := rfl
@[simp] theorem assertReset_line (s : State) : (assertReset s).line = .inReset := rfl
@[simp] theorem assertReset_input (s : State) : (assertReset s).input = s.input := rfl
@[simp] theorem assertReset_observed (s : State) : (assertReset s).observed = s.observed := rfl
@[simp] theorem assertReset_busyLeft (s : State) : (assertReset s).busyLeft = 0 := rfl
@[simp] theorem assertReset_accepted (s : State) : (assertReset s).accepted = s.accepted := rfl
@[simp] theorem assertReset_powerLosses (s : State) : (assertReset s).powerLosses = s.powerLosses := rfl

/-! ### `losePower` -/

@[simp] theorem losePower_phase (s : State) :
    (losePower s).phase = (Config.params.powerUp s.powerLosses).phase := rfl
@[simp] theorem losePower_errcode (s : State) :
    (losePower s).errcode = (Config.params.powerUp s.powerLosses).errcode := rfl
@[simp] theorem losePower_pend (s : State) :
    (losePower s).pend = (Config.params.powerUp s.powerLosses).pend := rfl
@[simp] theorem losePower_key (s : State) :
    (losePower s).key = (Config.params.powerUp s.powerLosses).key.take Config.params.keyMax := rfl
@[simp] theorem losePower_sb (s : State) :
    (losePower s).sb = Memory.writeBytes [] 0 ((List.range Config.params.seedWidth).map (Config.params.powerUp s.powerLosses).sbByte) := rfl
@[simp] theorem losePower_gen (s : State) :
    (losePower s).gen = (Config.params.powerUp s.powerLosses).gen := rfl
@[simp] theorem losePower_acc (s : State) :
    (losePower s).acc = (Config.params.powerUp s.powerLosses).acc := rfl
@[simp] theorem losePower_dout (s : State) :
    (losePower s).dout = zext32 (Config.params.powerUp s.powerLosses).dout := rfl
@[simp] theorem losePower_line (s : State) : (losePower s).line = .unpowered := rfl
@[simp] theorem losePower_input (s : State) : (losePower s).input = s.input := rfl
@[simp] theorem losePower_observed (s : State) : (losePower s).observed = s.observed := rfl
@[simp] theorem losePower_busyLeft (s : State) : (losePower s).busyLeft = s.busyLeft := rfl
@[simp] theorem losePower_accepted (s : State) : (losePower s).accepted = s.accepted := rfl
@[simp] theorem losePower_powerLosses (s : State) : (losePower s).powerLosses = s.powerLosses + 1 := rfl

/-! ### `presentWord` -/

@[simp] theorem presentWord_phase (w : Word) (s : State) : (presentWord w s).phase = s.phase := rfl
@[simp] theorem presentWord_errcode (w : Word) (s : State) : (presentWord w s).errcode = s.errcode := rfl
@[simp] theorem presentWord_pend (w : Word) (s : State) : (presentWord w s).pend = s.pend := rfl
@[simp] theorem presentWord_key (w : Word) (s : State) : (presentWord w s).key = s.key := rfl
@[simp] theorem presentWord_sb (w : Word) (s : State) : (presentWord w s).sb = s.sb := rfl
@[simp] theorem presentWord_gen (w : Word) (s : State) : (presentWord w s).gen = s.gen := rfl
@[simp] theorem presentWord_acc (w : Word) (s : State) : (presentWord w s).acc = s.acc := rfl
@[simp] theorem presentWord_dout (w : Word) (s : State) : (presentWord w s).dout = s.dout := rfl
@[simp] theorem presentWord_line (w : Word) (s : State) : (presentWord w s).line = .running := rfl
@[simp] theorem presentWord_input (w : Word) (s : State) : (presentWord w s).input = .write .cmd w :: s.input := rfl
@[simp] theorem presentWord_observed (w : Word) (s : State) : (presentWord w s).observed = s.observed := rfl
@[simp] theorem presentWord_busyLeft (w : Word) (s : State) : (presentWord w s).busyLeft = s.busyLeft + 1 := rfl
@[simp] theorem presentWord_accepted (w : Word) (s : State) : (presentWord w s).accepted = s.accepted := rfl
@[simp] theorem presentWord_powerLosses (w : Word) (s : State) : (presentWord w s).powerLosses = s.powerLosses := rfl

/-! ### The views of the state -/

@[simp] theorem readReg_dout (s : State) : readReg .dout s = s.dout := rfl
@[simp] theorem readReg_status (s : State) : readReg .status s = statusWord s := rfl
@[simp] theorem readReg_keylen (s : State) : readReg .keylen s = BitVec.ofNat 32 s.key.length := rfl
@[simp] theorem readReg_id (s : State) : readReg .id s = 0x4D544B53 := rfl
@[simp] theorem readReg_cmd (s : State) : readReg .cmd s = 0x00000000 := rfl
@[simp] theorem readReg_reserved7 (s : State) : readReg .reserved7 s = 0x00000000 := rfl

end Sys2Proof.Machine
end

