-- ==== Sys2Proof/Laws/Ops.lean ====
section
/-! SUPPORT. What each shared operation can do, said once: provers cite these instead of unfolding the operation. -/

namespace Sys2Proof

/-! ### Parameters -/

theorem Params.seedWords_pos (c : Params) : 0 < c.seedWords := Nat.succ_pos _
theorem Params.seedWidth_pos (c : Params) : 0 < c.seedWidth := Nat.mul_pos (by decide) c.seedWords_pos
theorem Params.digestLen_pos (c : Params) : 0 < c.digestLen := Nat.succ_pos _
theorem Params.nPrime_pos (c : Params) : 0 < c.nPrime := Nat.succ_pos _
theorem Params.keyMax_pos (c : Params) : 0 < c.keyMax := Nat.succ_pos _

/-- The ranges of 00_scope.md R7 to R10. -/
theorem Params.ranges (c : Params) :
    c.seedWidth % 4 = 0 ∧ 4 ≤ c.seedWidth ∧ c.seedWidth ≤ 65532 ∧ 1 ≤ c.digestLen ∧ c.digestLen ≤ 255 ∧
      1 ≤ c.nPrime ∧ c.nPrime ≤ 4294967295 ∧ 1 ≤ c.keyMax ∧ c.keyMax ≤ 4294967295 := by
  have h1 := c.seedWordsPred.isLt
  have h2 := c.digestLenPred.isLt
  have h3 := c.nPrimePred.isLt
  have h4 := c.keyMaxPred.isLt
  simp only [Params.seedWidth, Params.seedWords, Params.digestLen, Params.nPrime, Params.keyMax]
  omega

end Sys2Proof

namespace Sys2Proof.Machine

/-! ### Digest and arithmetic -/

@[simp] theorem digest_length (c : Params) (x : List Byte) : (digest c x).length = c.digestLen := by
  simp [digest]

theorem mul32_eq_mul (a b : Word) : mul32 a b = a * b := by
  apply BitVec.eq_of_toNat_eq
  simp [mul32]

@[simp] theorem seedWords_length (c : Params) (m : Memory) : (seedWords c m).length = c.seedWords := by
  simp [seedWords]

@[simp] theorem accRounds_zero (c : Params) (acc : Word) (g : GenState) : accRounds c 0 acc g = (acc, g) := rfl

theorem accRounds_succ (c : Params) (n : Nat) (acc : Word) (g : GenState) :
    accRounds c (n + 1) acc g = accRounds c n (accRound c acc g).1 (accRound c acc g).2 := rfl

/-! ### Issue -/

/-- The phases of 10_state.md R40. -/
theorem legalIn_iff (p : Pending) (ph : Phase) :
    legalIn p ph = true ↔
      match p with
      | .keyPush _ => ph = .idle
      | .expand => ph = .idle
      | .seed => ph = .expanded
      | .prime => ph = .seeded
      | .xform _ => ph = .primed ∨ ph = .streaming := by
  cases p <;> simp [legalIn]

/-- The issue procedure ends in one of six ways, each with its grounds (42_control.md R105). -/
theorem issueCommand_cases (c : Params) (p : Pending) (late : Option ErrCode) (s : State) :
    (s.phase = .fault ∧ issueCommand c p late s = s) ∨
    (s.phase ≠ .fault ∧ s.pend ≠ none ∧ issueCommand c p late s = raiseFault .cmdWhileBusy s) ∨
    (s.phase ≠ .fault ∧ s.pend = none ∧ legalIn p s.phase = false ∧ issueCommand c p late s = raiseFault .order s) ∨
    (s.phase ≠ .fault ∧ s.pend = none ∧ legalIn p s.phase = true ∧
      ∃ e, late = some e ∧ issueCommand c p late s = raiseFault e s) ∨
    (s.phase ≠ .fault ∧ s.pend = none ∧ legalIn p s.phase = true ∧ late = none ∧
      issueCommand c p late s = accept c p s) := by
  unfold issueCommand
  by_cases h1 : s.phase = .fault
  · exact .inl ⟨h1, if_pos h1⟩
  by_cases h2 : s.pend = none
  swap
  · exact .inr (.inl ⟨h1, h2, by rw [if_neg h1, if_pos h2]⟩)
  cases h3 : legalIn p s.phase
  · exact .inr (.inr (.inl ⟨h1, h2, rfl, by simp [h1, h2]⟩))
  cases late with
  | some e => exact .inr (.inr (.inr (.inl ⟨h1, h2, rfl, e, rfl, by simp [h1, h2]⟩)))
  | none => exact .inr (.inr (.inr (.inr ⟨h1, h2, rfl, rfl, by simp [h1, h2]⟩)))

/-- An illegal word is ignored in FAULT and faults elsewhere (30_encoding.md R67). -/
theorem issueIllegal_cases (s : State) :
    (s.phase = .fault ∧ issueIllegal s = s) ∨
    (s.phase ≠ .fault ∧ s.pend ≠ none ∧ issueIllegal s = raiseFault .cmdWhileBusy s) ∨
    (s.phase ≠ .fault ∧ s.pend = none ∧ issueIllegal s = raiseFault .illegalCmd s) := by
  unfold issueIllegal
  by_cases h1 : s.phase = .fault
  · exact .inl ⟨h1, if_pos h1⟩
  by_cases h2 : s.pend = none
  · exact .inr (.inr ⟨h1, h2, by simp [h1, h2]⟩)
  · exact .inr (.inl ⟨h1, h2, by rw [if_neg h1, if_pos h2]⟩)

/-- Every write of a command to CMD gives a next state: a fault of the block's is one too (60_exceptions.md R114). -/
theorem exec_next (i : Instr) (s : State) : ∃ t, exec i s = .next t := by
  cases i <;> exact ⟨_, rfl⟩

/-- A command's own issue check, made after all the others (42_control.md R105). -/
def lateCheck (p : Pending) (s : State) : Option ErrCode :=
  match p with
  | .keyPush _ => keyPushCheck Config.params s
  | .expand => expandCheck s
  | .seed => none
  | .prime => none
  | .xform _ => none

/-- A command that can be pending is issued by the shared procedure, with its own late check. -/
theorem exec_command (p : Pending) (s : State) :
    exec p.command s = .next (issueCommand Config.params p (lateCheck p s) s) := by
  cases p <;> rfl

/-- The late check of a command passes where it has a passphrase or room for the byte. -/
theorem lateCheck_eq_none (p : Pending) (s : State) :
    lateCheck p s = none ↔ (p = .expand → s.key ≠ []) ∧ ∀ b, p = .keyPush b → s.key.length < Config.params.keyMax := by
  cases p <;> simp [lateCheck, keyPushCheck, expandCheck]

/-- A late check that fails gives KEY_OVERFLOW or KEY_EMPTY. -/
theorem lateCheck_ne_none_code {p : Pending} {s : State} {e : ErrCode} (h : lateCheck p s = some e) : e ≠ .none := by
  cases p <;> simp [lateCheck, keyPushCheck, expandCheck] at h <;> simp [← h.2]

/-! ### The step -/

theorem step_engine {s : State} (h : engineTurn s = true) : step s = engineStep s := if_pos h

theorem step_host {s : State} (h : engineTurn s = false) : step s = hostTurn s := by
  simp [step, h]

/-- When it is the engine's turn. -/
theorem engineTurn_iff (s : State) :
    engineTurn s = true ↔ s.line = .running ∧ (∃ p, s.pend = some p) ∧ (s.busyLeft = 0 ∨ s.input = []) := by
  simp only [engineTurn, Bool.and_eq_true, decide_eq_true_eq, Bool.or_eq_true, List.isEmpty_iff,
    Option.isSome_iff_exists, and_assoc]

/-- What the host's turn does, by its next input. -/
theorem hostTurn_nil {s : State} (h : s.input = []) : hostTurn s = .next s := by
  simp [hostTurn, h]

theorem hostTurn_cons {s : State} {e : HostInput} {rest : List HostInput} (h : s.input = e :: rest) :
    hostTurn s = takeInput e { s with input := rest, busyLeft := s.busyLeft - 1 } := by
  simp [hostTurn, h]

/-- A write of a word to CMD gives a next state: the command's issue, or the fault entry of an illegal word. -/
theorem issueWord_next (w : Word) (s : State) : ∃ t, issueWord w s = .next t := by
  unfold issueWord
  cases decode w with
  | command i => exact exec_next i s
  | illegal why => exact ⟨_, rfl⟩

/-- A write at the port gives a next state (60_exceptions.md R108, R114). -/
theorem portWrite_next (r : HostReg) (w : Word) (s : State) : ∃ t, portWrite r w s = .next t := by
  cases r with
  | cmd => exact issueWord_next w s
  | _ => exact ⟨s, rfl⟩

/-- The completion of each pending command: where it stops, why (41_cipher_engine.md R103). -/
theorem complete_cases (c : Params) (p : Pending) (s : State) :
    (∃ t, complete c p s = .next t ∧ t.pend = none) ∨
    (p = .expand ∧ ks c s.key s.sb = none ∧ complete c p s = .fault .seedBufferBounds) ∨
    (s.gen = none ∧ complete c p s = .fault .generatorUnseeded) := by
  cases p with
  | keyPush b => exact .inl ⟨_, rfl, rfl⟩
  | expand =>
    simp only [complete, completeExpand]
    cases h : ks c s.key s.sb with
    | none => exact .inr (.inl ⟨trivial, rfl, rfl⟩)
    | some r => exact .inl ⟨_, rfl, rfl⟩
  | seed => exact .inl ⟨_, rfl, rfl⟩
  | prime =>
    simp only [complete, completePrime]
    cases h : s.gen with
    | none => exact .inr (.inr ⟨rfl, rfl⟩)
    | some g => exact .inl ⟨_, rfl, rfl⟩
  | xform b =>
    simp only [complete, completeXform]
    cases h : s.gen with
    | none => exact .inr (.inr ⟨rfl, rfl⟩)
    | some g => exact .inl ⟨_, rfl, rfl⟩

end Sys2Proof.Machine
end

