-- ==== Sys2Proof/Laws/Keystream.lean ====
section
/-! SUPPORT. Small lemmas about the closed forms of the key schedule and the keystream (40_key_schedule.md R86;
41_cipher_engine.md R93, R97). -/

namespace Sys2Proof.Machine

/-! ### The digest chain -/

@[simp] theorem digestChain_zero (c : Params) (key : List Byte) : digestChain c key 0 = [] := rfl

theorem digestChain_succ (c : Params) (key : List Byte) (k : Nat) :
    digestChain c key (k + 1) = digestChain c key k ++ digest c (digestInput c key k) := rfl

@[simp] theorem digestChain_length (c : Params) (key : List Byte) (k : Nat) :
    (digestChain c key k).length = k * c.digestLen := by
  induction k with
  | zero => simp
  | succ k ih => simp [digestChain_succ, ih, Nat.succ_mul]

/-- The digest calls cover SB. -/
theorem seedWidth_le_digestCalls_mul (c : Params) : c.seedWidth ≤ digestCalls c * c.digestLen := by
  have hd := c.digestLen_pos
  have h := Nat.lt_div_mul_add (a := c.seedWidth + c.digestLen - 1) hd
  unfold digestCalls
  omega

/-- The closed form has exactly W bytes (40_key_schedule.md R79). -/
@[simp] theorem seedBytes_length (c : Params) (key : List Byte) : (seedBytes c key).length = c.seedWidth := by
  simp [seedBytes, seedWidth_le_digestCalls_mul]

/-! ### The accumulator -/

/-- A word is odd exactly when its bit 0 is 1. -/
theorem odd_iff_bit_zero (x : Word) : x.getLsbD 0 = true ↔ x.toNat % 2 = 1 := by
  simp [BitVec.getLsbD, Nat.testBit_zero]

theorem oddMultiplier_odd (g : Word) : (oddMultiplier g).toNat % 2 = 1 := by
  rw [← odd_iff_bit_zero]
  simp [oddMultiplier]

/-- A round keeps the accumulator odd (10_state.md R42). -/
theorem mul32_oddMultiplier_odd {a : Word} (g : Word) (h : a.getLsbD 0 = true) :
    (mul32 a (oddMultiplier g)).getLsbD 0 = true := by
  rw [odd_iff_bit_zero] at h ⊢
  rw [mul32_eq_mul, BitVec.toNat_mul, Nat.mod_mod_of_dvd _ (by decide : 2 ∣ 2 ^ 32), Nat.mul_mod, h,
    oddMultiplier_odd]

theorem accAfter_odd (c : Params) (g : GenState) (n : Nat) : (accAfter c g n).getLsbD 0 = true := by
  cases n with
  | zero => rw [accAfter]; decide
  | succ n => exact mul32_oddMultiplier_odd _ (accAfter_odd c g n)

/-- The rounds of PRIME and XFORM move one place on. -/
theorem accRound_place (c : Params) (g : GenState) (n : Nat) :
    accRound c (accAfter c g n) (genAfter c g n) = (accAfter c g (n + 1), genAfter c g (n + 1)) := rfl

end Sys2Proof.Machine
end

