-- ==== Sys2Proof/Laws/PerInstr.lean ====
section
/-! SUPPORT. Statements about every instruction, one lemma per constructor of `Instr`. -/

namespace Sys2Proof.Laws

/-- The word of a command has the fields the map gives it (30_encoding.md R63): its OPCODE, RSV zero, its DATA, and they
pass the checks of R63 to R65. -/
def EncodedFields.Statement (i : Instr) : Prop :=
  Fields.ofWord (encode i) = ⟨i.opcode, 0, i.data⟩ ∧ (Fields.ofWord (encode i)).wellFormed = true

/-- Splitting a word into its fields undoes joining them. -/
theorem ofWord_toWord (f : Fields) : Fields.ofWord f.toWord = f := by
  obtain ⟨o, r, d⟩ := f
  simp only [Fields.ofWord, Fields.toWord, Fields.mk.injEq]
  refine ⟨?_, ?_, ?_⟩
  · ext k hk
    simp only [BitVec.getElem_extractLsb', BitVec.getLsbD_append]
    rw [if_neg (by omega), if_neg (by omega), BitVec.getLsbD_eq_getElem (by omega)]
    congr 1; omega
  · ext k hk
    simp only [BitVec.getElem_extractLsb', BitVec.getLsbD_append]
    rw [if_neg (by omega), if_pos (by omega), BitVec.getLsbD_eq_getElem (by omega)]
    congr 1; omega
  · ext k hk
    simp only [BitVec.getElem_extractLsb', BitVec.getLsbD_append]
    rw [if_pos (by omega), BitVec.getLsbD_eq_getElem (by omega)]
    congr 1; omega

/-- Joining the fields of a word gives the word back. -/
theorem toWord_ofWord (w : Word) : (Fields.ofWord w).toWord = w := by
  simp only [Fields.ofWord, Fields.toWord]
  ext k hk
  simp only [BitVec.getElem_append, BitVec.getElem_extractLsb']
  split
  · simp [BitVec.getLsbD_eq_getElem hk]
  · split
    · rw [BitVec.getLsbD_eq_getElem (by omega)]; congr 1; omega
    · rw [BitVec.getLsbD_eq_getElem (by omega)]; congr 1; omega

theorem EncodedFields.keyPush (b : Byte) : EncodedFields.Statement (.keyPush b) :=
  ⟨ofWord_toWord _, by rw [encode, ofWord_toWord]; rfl⟩

theorem EncodedFields.expand : EncodedFields.Statement .expand :=
  ⟨ofWord_toWord _, by rw [encode, ofWord_toWord]; rfl⟩

theorem EncodedFields.seed : EncodedFields.Statement .seed :=
  ⟨ofWord_toWord _, by rw [encode, ofWord_toWord]; rfl⟩

theorem EncodedFields.prime : EncodedFields.Statement .prime :=
  ⟨ofWord_toWord _, by rw [encode, ofWord_toWord]; rfl⟩

theorem EncodedFields.xform (b : Byte) : EncodedFields.Statement (.xform b) :=
  ⟨ofWord_toWord _, by rw [encode, ofWord_toWord]; rfl⟩

theorem EncodedFields.srst : EncodedFields.Statement .srst :=
  ⟨ofWord_toWord _, by rw [encode, ofWord_toWord]; rfl⟩

end Sys2Proof.Laws
end

