-- ==== Sys2Proof/Laws/Step.lean ====
section
/-! SUPPORT. What a step can do, said once: the outcomes of a write to CMD, of the host's turn and of a step. Claims
over all steps are derived from these instead of unfolding the step. -/

namespace Sys2Proof.Machine

/-! ### The block's own state -/

theorem sameBlock_refl (s : State) : sameBlock s s := ⟨rfl, rfl, rfl, rfl, rfl, rfl, rfl, rfl⟩

theorem sameBlock_symm {s t : State} (h : sameBlock s t) : sameBlock t s := by
  obtain ⟨h1, h2, h3, h4, h5, h6, h7, h8⟩ := h
  exact ⟨h1.symm, h2.symm, h3.symm, h4.symm, h5.symm, h6.symm, h7.symm, h8.symm⟩

theorem sameBlock_trans {s t u : State} (h : sameBlock s t) (k : sameBlock t u) : sameBlock s u := by
  obtain ⟨h1, h2, h3, h4, h5, h6, h7, h8⟩ := h
  obtain ⟨k1, k2, k3, k4, k5, k6, k7, k8⟩ := k
  exact ⟨h1.trans k1, h2.trans k2, h3.trans k3, h4.trans k4, h5.trans k5, h6.trans k6, h7.trans k7, h8.trans k8⟩

theorem blockReset_resetBlock (s : State) : blockReset (resetBlock s) := ⟨rfl, rfl, rfl, rfl, rfl, rfl, rfl, rfl⟩

theorem blockReset_assertReset (s : State) : blockReset (assertReset s) := ⟨rfl, rfl, rfl, rfl, rfl, rfl, rfl, rfl⟩

/-! ### The invariants -/

theorem machineInv_of_blockInv {c : Params} {s : State} (i : BlockInv c s) : MachineInv c s :=
  ⟨i.toStoreInv, fun _ => i⟩

/-- Whatever a loss of power leaves, it has the registers' shape: SB canonical and inside [0, W), KEY at most KEY_MAX,
DOUT[31:8] zero. -/
theorem losePower_storeInv (s : State) : StoreInv Config.params (losePower s) where
  sbCanonical := Memory.writeBytes_wf Memory.wf_nil 0 _
  sbInside x hx := by
    rcases Memory.mem_writeBytes hx with hx | ⟨_, hx⟩
    · simp at hx
    · simpa using hx
  keyBounded := List.length_take_le ..
  doutByte := by
    ext k hk
    simp [zext32]

/-! ### Issue -/

/-- A pending command is never SRST. -/
theorem Pending.command_ne_srst (p : Pending) : p.command ≠ .srst := by
  cases p <;> simp [Pending.command]

/-- Every command but SRST can be pending. -/
theorem Instr.eq_srst_or_command (i : Instr) : i = .srst ∨ ∃ p : Pending, i = p.command := by
  cases i with
  | keyPush b => exact .inr ⟨.keyPush b, rfl⟩
  | expand => exact .inr ⟨.expand, rfl⟩
  | seed => exact .inr ⟨.seed, rfl⟩
  | prime => exact .inr ⟨.prime, rfl⟩
  | xform b => exact .inr ⟨.xform b, rfl⟩
  | srst => exact .inl rfl

/-- The grounds on which a command is accepted (42_control.md R105). -/
structure Accepted (p : Pending) (s : State) : Prop where
  legal : legalIn p s.phase = true
  notBusy : s.pend = none
  notFault : s.phase ≠ .fault
  expandKey : p = .expand → s.key ≠ []
  keyPushRoom : ∀ b, p = .keyPush b → s.key.length < Config.params.keyMax

/-- The write of a command other than SRST: ignored in FAULT, or a fault entry, or the acceptance. -/
theorem exec_command_cases (p : Pending) (s : State) :
    (s.phase = .fault ∧ exec p.command s = .next s) ∨
    (∃ e, e ≠ .none ∧ s.phase ≠ .fault ∧ exec p.command s = .next (raiseFault e s)) ∨
    (Accepted p s ∧ exec p.command s = .next (accept Config.params p s)) := by
  rw [exec_command]
  rcases issueCommand_cases Config.params p (lateCheck p s) s with
    ⟨h, e⟩ | ⟨h, _, e⟩ | ⟨h, _, _, e⟩ | ⟨h, _, _, x, hx, e⟩ | ⟨h, hp, hlg, hn, e⟩ <;> rw [e]
  · exact .inl ⟨h, rfl⟩
  · exact .inr (.inl ⟨_, by simp, h, rfl⟩)
  · exact .inr (.inl ⟨_, by simp, h, rfl⟩)
  · exact .inr (.inl ⟨x, lateCheck_ne_none_code hx, h, rfl⟩)
  · obtain ⟨h1, h2⟩ := (lateCheck_eq_none p s).1 hn
    exact .inr (.inr ⟨⟨hlg, hp, h, h1, h2⟩, rfl⟩)

/-- A write of any word to CMD: ignored in FAULT, a fault entry, the soft reset, or an acceptance. -/
theorem issueWord_cases {w : Word} {s t : State} (h : issueWord w s = .next t) :
    (s.phase = .fault ∧ t = s ∧ decode w ≠ .command .srst) ∨
    (∃ e, e ≠ .none ∧ s.phase ≠ .fault ∧ t = raiseFault e s) ∨
    (decode w = .command .srst ∧ t = resetBlock s) ∨
    (∃ p : Pending, decode w = .command p.command ∧ Accepted p s ∧ t = accept Config.params p s) := by
  unfold issueWord at h
  cases hd : decode w with
  | command i =>
    rw [hd] at h
    rcases Instr.eq_srst_or_command i with rfl | ⟨p, rfl⟩
    · cases h
      exact .inr (.inr (.inl ⟨rfl, rfl⟩))
    · rcases exec_command_cases p s with ⟨hf, e⟩ | ⟨x, hx, hf, e⟩ | ⟨ha, e⟩ <;>
        · simp only [e, Host.Outcome.next.injEq] at h
          subst h
          first
          | exact .inl ⟨hf, rfl, by simpa using p.command_ne_srst⟩
          | exact .inr (.inl ⟨x, hx, hf, rfl⟩)
          | exact .inr (.inr (.inr ⟨p, rfl, ha, rfl⟩))
  | illegal why =>
    rw [hd] at h
    simp only [Host.Outcome.next.injEq] at h
    subst h
    rcases issueIllegal_cases s with ⟨hf, e⟩ | ⟨hf, _, e⟩ | ⟨hf, _, e⟩
    · exact .inl ⟨hf, e, by simp⟩
    · exact .inr (.inl ⟨_, by simp, hf, e⟩)
    · exact .inr (.inl ⟨_, by simp, hf, e⟩)

/-! ### The host's turn -/

/-- What one input does to the block: nothing, the write of a word to CMD, the hard reset, or the loss of power. -/
theorem takeInput_cases {e : HostInput} {s t : State} (h : takeInput e s = .next t) :
    sameBlock t s ∨
    (∃ w, s.line = .running ∧ cmdWord Config.params e = some w ∧ issueWord w s = .next t) ∨
    (e = .resetAssert ∧ t = assertReset s) ∨
    (e = .powerLoss ∧ t = losePower s) := by
  have drop : ∀ o, Host.Outcome.next (φ := Fault) (ρ := Refusal) { s with observed := s.observed ++ [o] } = .next t →
      sameBlock t s := by
    intro o ho; cases ho; exact sameBlock_refl s
  have port : ∀ r w, portWrite r w s = .next t → (r = .cmd ∧ issueWord w s = .next t) ∨ t = s := by
    intro r w hw
    cases r <;> simp only [portWrite, Host.Outcome.next.injEq] at hw <;> first | exact .inl ⟨rfl, hw⟩ | exact .inr hw.symm
  have sub : subwordAccess Config.params s = .next t → sameBlock t s := by
    intro hs
    unfold subwordAccess at hs
    split at hs
    · exact drop _ hs
    · cases hs
  have acc : ∀ o, atPort s o = .next t → sameBlock t s ∨ (s.line = .running ∧ o = .next t) := by
    intro o ho
    unfold atPort at ho
    split at ho
    next hr => exact .inr ⟨hr, ho⟩
    · exact .inl (drop _ ho)
    · cases ho
  cases e with
  | read r =>
    rcases acc _ h with h | ⟨_, h⟩
    · exact .inl h
    · cases h; exact .inl (sameBlock_refl s)
  | write r w =>
    rcases acc _ h with h | ⟨hr, h⟩
    · exact .inl h
    · rcases port r w h with ⟨rfl, h⟩ | rfl
      · exact .inr (.inl ⟨w, hr, by simp [cmdWord], h⟩)
      · exact .inl (sameBlock_refl _)
  | wait =>
    rcases acc _ h with h | ⟨_, h⟩
    · exact .inl h
    · cases h
      unfold portWait
      split <;> exact .inl (sameBlock_refl s)
  | busRead addr bytes =>
    rcases acc _ h with h | ⟨_, h⟩
    · exact .inl h
    · unfold busReadWith at h
      split at h
      · cases h; exact .inl (sameBlock_refl s)
      · exact .inl (sub h)
      · cases h
  | busWrite addr bytes w =>
    rcases acc _ h with h | ⟨hr, h⟩
    · exact .inl h
    · unfold busWriteWith at h
      split at h
      next r hb =>
        rcases port r w h with ⟨rfl, h⟩ | rfl
        · exact .inr (.inl ⟨w, hr, by simp [cmdWord, hb], h⟩)
        · exact .inl (sameBlock_refl _)
      · exact .inl (sub h)
      · cases h
  | resetAssert => cases h; exact .inr (.inr (.inl ⟨rfl, rfl⟩))
  | resetRelease =>
    cases h
    unfold releaseReset
    split <;> exact .inl (sameBlock_refl s)
  | powerLoss => cases h; exact .inr (.inr (.inr ⟨rfl, rfl⟩))

/-- What a step does to the block: the engine completes the pending command, or nothing changes, or a word is written to
CMD, or the reset input is asserted, or power is lost. `s'` is the state with its next input taken. -/
theorem step_cases {s t : State} (h : step s = .next t) :
    (engineTurn s = true ∧ ∃ p, s.pend = some p ∧ complete Config.params p s = .next t) ∨
    (engineTurn s = false ∧ sameBlock t s) ∨
    (engineTurn s = false ∧ ∃ e rest w s', s.input = e :: rest ∧ cmdWord Config.params e = some w ∧ s.line = .running ∧
      s' = { s with input := rest, busyLeft := s.busyLeft - 1 } ∧ issueWord w s' = .next t) ∨
    (engineTurn s = false ∧ ∃ rest, s.input = .resetAssert :: rest ∧
      t = assertReset { s with input := rest, busyLeft := s.busyLeft - 1 }) ∨
    (engineTurn s = false ∧ ∃ rest, s.input = .powerLoss :: rest ∧
      t = losePower { s with input := rest, busyLeft := s.busyLeft - 1 }) := by
  cases he : engineTurn s with
  | true =>
    obtain ⟨p, hp⟩ := ((engineTurn_iff s).1 he).2.1
    rw [step_engine he, engineStep, engineStepWith, hp] at h
    exact .inl ⟨rfl, p, hp, h⟩
  | false =>
    rw [step_host he] at h
    cases hi : s.input with
    | nil =>
      rw [hostTurn_nil hi] at h
      cases h
      exact .inr (.inl ⟨rfl, sameBlock_refl _⟩)
    | cons e rest =>
      rw [hostTurn_cons hi] at h
      rcases takeInput_cases h with h | ⟨w, hr, hw, h⟩ | ⟨rfl, h⟩ | ⟨rfl, h⟩
      · exact .inr (.inl ⟨rfl, h⟩)
      · exact .inr (.inr (.inl ⟨rfl, e, rest, w, _, rfl, hw, hr, rfl, h⟩))
      · cases h
        exact .inr (.inr (.inr (.inl ⟨rfl, rest, rfl, rfl⟩)))
      · cases h
        exact .inr (.inr (.inr (.inr ⟨rfl, rest, rfl, rfl⟩)))

end Sys2Proof.Machine
end

