-- ==== Sys2Proof/Tests/Slice0.lean ====
section
/-! SUPPORT. The model's own tests. Expected values come from spec/95_test_vectors.md (the vector is named), or are
worked out by hand from the rule named. At the end: for each statement with hypotheses, a state and operands that meet
them. -/

namespace Sys2Proof.Tests

open Sys2Proof Sys2Proof.Machine

/-! ### The toy instance (95_test_vectors.md section 2) -/

/-- T_D: byte i is (|x| + sum(x) + i) mod 256. -/
def toyDigestByte (x : List Byte) (i : Nat) : Byte :=
  BitVec.ofNat 8 (x.length + (x.map BitVec.toNat).sum + i)

/-- TG: it replays its seed words cyclically. -/
def toyNext (g : GenState) : Word × GenState :=
  (g.words.getD (g.index % g.words.length) 0, ⟨g.words, g.index + 1⟩)

/-- TOY: W = 12, D = 5, N_PRIME = 2, LE, KEY_MAX = 2^32 - 1. The port is mapped at 0x40000000 with the safe bridge. -/
def toy : Params where
  seedWordsPred := 2
  digestLenPred := 4
  nPrimePred := 1
  keyMaxPred := 4294967294
  seedOrder := .le
  digestByte := toyDigestByte
  genSeed := fun ws => ⟨ws, 0⟩
  genNext := toyNext
  busyLength := fun _ => 0
  powerUp := default
  ksgBase := 0x40000000
  bridgeSubword := .busFault

/-- The passphrase "ab". -/
def keyAb : List Byte := [0x61, 0x62]

/-- SB of vector V2.1. -/
def sbAb : List Byte := [0xc5, 0xc6, 0xc7, 0xc8, 0xc9, 0xe8, 0xe9, 0xea, 0xeb, 0xec, 0x7f, 0x80]

/-- The generator after SEED of V2.1's words, at a step. -/
def genAb (n : Nat) : GenState := ⟨[0xC8C7C6C5, 0xEAE9E8C9, 0x807FECEB], n⟩

/-- The next state of an outcome, if it is one. -/
def nextOf (o : Host.Outcome State Fault Refusal) : Option State :=
  match o with
  | .next s => some s
  | .fault _ => none
  | .refused _ => none

/-! ### Decoding: the words written out from 30_encoding.md R63 -/

theorem test_decode_key_push : decode 0x010000FF = .command (.keyPush 0xFF) := by decide
theorem test_decode_expand : decode 0x02000000 = .command .expand := by decide
theorem test_decode_seed : decode 0x03000000 = .command .seed := by decide
theorem test_decode_prime : decode 0x04000000 = .command .prime := by decide
theorem test_decode_xform : decode 0x05000080 = .command (.xform 0x80) := by decide
theorem test_decode_srst : decode 0xFF000000 = .command .srst := by decide

/-- V1.3, V1.5, V1.9, V1.11, V1.12, V1.13. -/
theorem test_decode_illegal :
    [0x01000100, 0x02000001, 0x05010000, 0xFF000001, 0x00000000, 0x06000000, 0x80000000, 0xFE000000].map decode =
      [.illegal .reservedNonzero, .illegal .dataNonzero, .illegal .reservedNonzero, .illegal .dataNonzero,
        .illegal .opcodeUnassigned, .illegal .opcodeUnassigned, .illegal .opcodeUnassigned,
        .illegal .opcodeUnassigned] := by decide

theorem test_decode_table_word : decodeTableWord 32 0x05000048 = some (.xform 0x48) := by decide

/-! ### WellFormed: each check refuses an ill-formed term -/

theorem test_wellFormed_accepts : Fields.wellFormed ⟨0x01, 0, 0x61⟩ = true := by decide
theorem test_wellFormed_refuses_opcode : Fields.wellFormed ⟨0x06, 0, 0⟩ = false := by decide
theorem test_wellFormed_refuses_rsv : Fields.wellFormed ⟨0x01, 1, 0⟩ = false := by decide
theorem test_wellFormed_refuses_data : Fields.wellFormed ⟨0x02, 0, 1⟩ = false := by decide
theorem test_wellFormed_refuses_byte : Stmt.wellFormed (.keyPush 256) = false := by decide
theorem test_wellFormed_refuses_imm : Stmt.wellFormed (.wr .cmd 4294967296) = false := by decide
theorem test_wellFormed_refuses_string : Stmt.wellFormed (.key [0x61, 0x80]) = false := by decide

/-! ### Registers (V2r.1 to V2r.5) -/

theorem test_registers_at_reset :
    [HostReg.id, .cfg0, .cfg1, .cmd, .status, .dout, .keylen, .reserved7].map
        (fun r => readRegWith toy.defaults r State.reset) =
      [0x4D544B53, 0x004009C0, 0x00002710, 0, 0, 0, 0, 0] := by decide

/-- P1: CFG0 and CFG1 of TOY. -/
theorem test_registers_toy :
    (readRegWith toy .cfg0 State.reset, readRegWith toy .cfg1 State.reset) = (0x0005000C, 0x00000002) := by decide

/-! ### KEY_PUSH -/

/-- V3k.2: KEY = "ab", then 0x00. -/
theorem test_key_push_appends :
    (nextOf (complete toy (.keyPush 0x00) { State.reset with key := keyAb, pend := some (.keyPush 0x00) })).map
        (fun t => (t.key, statusWord t)) = some ([0x61, 0x62, 0x00], 0x00000000) := by decide

/-- V3k.3: KEY_MAX = 2, KEY = "ab". -/
theorem test_key_push_overflows :
    statusWord (issueKeyPush { toy with keyMaxPred := 1 } 0x63 { State.reset with key := keyAb }) = 0x00000472 := by
  decide

/-! ### EXPAND -/

/-- V2.1. -/
theorem test_expand_fills :
    (nextOf (complete toy .expand { State.reset with key := keyAb, pend := some .expand })).map
        (fun t => (t.sb.readBytes 0 12, statusWord t)) = some (sbAb, 0x00000010) := by decide

/-- V2.7. -/
theorem test_expand_refuses_the_empty_key : statusWord (issueExpand toy State.reset) = 0x00000372 := by decide

/-- V2.3: D >= W, one digest call. -/
theorem test_ks_one_call :
    (ks { toy with seedWordsPred := 1, digestLenPred := 15 } [0x61, 0x62, 0x63] []).map
        (fun r => (r.sb.readBytes 0 8, r.inputs.length)) =
      some ([0x29, 0x2a, 0x2b, 0x2c, 0x2d, 0x2e, 0x2f, 0x30], 1) := by decide

/-- V2.4: the one-byte key 0x00, W = 4, D = 1. -/
theorem test_ks_four_calls :
    (ks { toy with seedWordsPred := 0, digestLenPred := 0 } [0x00] []).map
        (fun r => (r.sb.readBytes 0 4, r.inputs.length)) = some ([0x01, 0x02, 0x05, 0x0b], 4) := by decide

/-! ### SEED -/

/-- The LE words of V2.1. -/
theorem test_seed_words :
    (nextOf (complete toy .seed { State.reset with phase := .expanded, sb := Memory.writeBytes [] 0 sbAb })).map
        (fun t => (t.gen, statusWord t)) = some (some (genAb 0), 0x00000020) := by decide

/-- The BE words of V2.1. -/
theorem test_seed_words_big_endian :
    seedWords { toy with seedOrder := .be } (Memory.writeBytes [] 0 sbAb) = [0xC5C6C7C8, 0xC9E8E9EA, 0xEBEC7F80] := by
  decide

/-! ### PRIME -/

/-- V4.2t; the ACC before PRIME has no effect. -/
theorem test_prime_warms_up :
    (nextOf (complete toy .prime { State.reset with phase := .seeded, gen := some (genAb 0), acc := 0xDEADBEEF })).map
        (fun t => (t.acc, t.gen, statusWord t)) = some (0xAC4A98AD, some (genAb 2), 0x00000030) := by decide

/-- V4.6t. -/
theorem test_prime_out_of_order :
    statusWord (issuePrime toy { State.reset with phase := .expanded }) = 0x00000272 := by decide

/-! ### XFORM -/

/-- Section 3.7, N_PRIME = 2, t = 2. -/
theorem test_xform_outputs :
    (nextOf (complete toy (.xform 0x55)
        { State.reset with phase := .streaming, gen := some (genAb 4), acc := 0x2D8E634B })).map
        (fun t => (t.dout, t.acc, t.gen, statusWord t)) =
      some (0x00000078, 0xBC0AEDE3, some (genAb 5), 0x00000040) := by decide

/-- V5.2, in SEEDED. -/
theorem test_xform_out_of_order :
    statusWord (issueXform toy 0x00 { State.reset with phase := .seeded }) = 0x00000272 := by decide

/-- V3.6, V3.8, V3.9 of section 3.5. -/
theorem test_rounds :
    [mul32 0x12345679 (oddMultiplier 0x9E3779B9), mul32 0x00000003 (oddMultiplier 0xAAAAAAAA),
      mul32 0x01000001 (oddMultiplier 0x000000FF)] = [0x26B0AE71, 0x00000001, 0xFF0000FF] := by decide

/-! ### SRST and faults -/

/-- V7.7 and V7.9: out of FAULT, and over a pending command. -/
theorem test_srst :
    (nextOf (exec .srst { State.reset with phase := .fault, errcode := .order, key := keyAb, dout := 0xF4 }) =
        some State.reset) ∧
      nextOf (exec .srst { State.reset with phase := .seeded, pend := some .prime, busyLeft := 3 }) =
        some State.reset := by decide

/-- V7.4: an illegal word while a command is pending is CMD_WHILE_BUSY. -/
theorem test_illegal_while_busy :
    (nextOf (issueWord 0x06000000 { State.reset with pend := some (.keyPush 0x61) })).map statusWord =
      some 0x00000572 := by decide

/-- V7.6: in FAULT an illegal word is ignored. -/
theorem test_illegal_in_fault :
    (nextOf (issueWord 0xFF000001 { State.reset with phase := .fault, errcode := .order })).map statusWord =
      some 0x00000272 := by decide

/-! ### The step -/

/-- V4.4t as the first step after reset: SEED in IDLE. -/
theorem test_step_runs_the_word :
    (nextOf (step (State.reset.withFetchWord 32 0x03000000))).map statusWord = some 0x00000272 := by decide

/-- V2r.7: a write to STATUS is ignored. -/
theorem test_write_status_ignored :
    (nextOf (step { State.reset with input := [.write .status 0xFFFFFFFF] })).map statusWord = some 0x00000000 := by
  decide

/-- R76: WAIT reads once where BUSY is 0, and comes again where it is 1. -/
theorem test_wait :
    (nextOf (takeInput .wait State.reset)).map State.input = some [] ∧
      (nextOf (takeInput .wait { State.reset with pend := some .expand })).map State.input = some [.wait] := by decide

/-- R46: register 5 at byte offset 20; a halfword access faults on the bus. -/
theorem test_bus :
    (busTarget toy 0x40000014 4, busTarget toy 0x40000014 2, busTarget toy 0x40000016 4, busTarget toy 0x40000020 4) =
      (.reg .dout, .subword, .subword, .unmapped) := by decide

/-! ### Programs -/

/-- P1's line `KEY "ab"` and its expansion. -/
theorem test_parse_key :
    ((parseLine ['K', 'E', 'Y', ' ', Char.ofNat 34, 'a', 'b', Char.ofNat 34, ' ', ';', ' ', 'x']).bind assemble) =
      some [.write .cmd 0x01000061, .wait, .write .cmd 0x01000062, .wait] := by decide

/-- P1's line `RD CFG0 => 0x0005000C ; W=12`, and a write with a hexadecimal literal (R71, R73). -/
theorem test_parse_access :
    (parseProgram ["RD   CFG0   => 0x0005000C ; W=12".toList, "".toList, "WR CMD, 0xfF000000".toList]) =
      some [.rd .cfg0, .wr .cmd 0xFF000000] := by decide

/-- A byte literal out of range, an unknown name and an open quote are errors (R72, R71, R73). -/
theorem test_parse_errors :
    ((parseLine "XFORM 256".toList).bind assemble, parseLine "RD R8".toList,
      parseLine ['K', 'E', 'Y', ' ', Char.ofNat 34, 'a']) = (none, none, none) := by decide

/-! ### Witnesses: for each statement with hypotheses, what meets them all -/

/-- The instance of the statements. -/
abbrev inst : Params := Config.params

/-- An idle block whose inputs are given. -/
def idleWith (input : List HostInput) : State := { State.reset with input := input }

/-- A block with KEY_PUSH pending and its BUSY interval over. -/
def pushing : State := { State.reset with pend := some (.keyPush 0x74) }

/-- A block in FAULT. -/
def faulted : State := { State.reset with phase := .fault, errcode := .order }

/-- A passphrase of exactly KEY_MAX bytes. -/
def fullKey : State := { State.reset with key := List.replicate inst.keyMax 0x61 }

/-- A passphrase of one byte less than KEY_MAX. -/
def almostFullKey : State := { State.reset with key := List.replicate inst.keyMaxPred.val 0x61 }

/-- SB as EXPAND leaves it. -/
def filledSb (key : List Byte) : Memory := Memory.writeBytes [] 0 (seedBytes inst key)

/-- A session primed from a passphrase, with `count` commands accepted so far. -/
def primedFrom (key : List Byte) (count : Nat) : State :=
  { State.reset with
    phase := .primed
    key := key
    sb := filledSb key
    gen := some (genAfter inst (inst.genSeed (seedWords inst (filledSb key))) inst.nPrime)
    acc := accAfter inst (inst.genSeed (seedWords inst (filledSb key))) inst.nPrime
    accepted := count }

/-- The invariant of a block in IDLE with an empty key. -/
theorem idle_blockInv {s : State} (h1 : s.phase = .idle) (h2 : s.errcode = .none) (h3 : s.sb = []) (h4 : s.key = [])
    (h5 : s.acc = 1) (h6 : s.dout = 0) (h7 : s.pend = none ∨ ∃ b, s.pend = some (.keyPush b)) : BlockInv inst s := by
  have hk := inst.keyMax_pos
  rcases h7 with h7 | ⟨b, h7⟩ <;>
    refine ⟨⟨?_, ?_, ?_, ?_⟩, ?_, ?_, ?_, ?_, ?_, ?_, ?_, ?_⟩ <;>
      simp [h1, h2, h3, h4, h5, h6, h7, Memory.wf, Phase.generating, Phase.filled, legalIn, hk]

theorem pushing_blockInv : BlockInv inst pushing :=
  idle_blockInv rfl rfl rfl rfl rfl rfl (.inr ⟨0x74, rfl⟩)

theorem faulted_blockInv : BlockInv inst faulted := by
  refine ⟨⟨?_, ?_, ?_, ?_⟩, ?_, ?_, ?_, ?_, ?_, ?_, ?_, ?_⟩ <;>
    simp [faulted, State.reset, Memory.wf, Phase.generating, Phase.filled]

theorem idle_keystreamInv {s : State} (h : s.phase = .idle) : KeystreamInv inst s := by
  constructor <;> simp [h, Phase.filled]

theorem filledSb_wf (key : List Byte) : Memory.wf (filledSb key) := Memory.writeBytes_wf Memory.wf_nil 0 _

theorem filledSb_inside (key : List Byte) : ∀ x ∈ filledSb key, x.1 < inst.seedWidth := by
  intro x hx
  rcases Memory.mem_writeBytes hx with hx | ⟨_, hx⟩
  · simp at hx
  · simpa using hx

theorem primed_blockInv (b : Byte) (n : Nat) : BlockInv inst (primedFrom [b] n) where
  sbCanonical := filledSb_wf [b]
  sbInside := filledSb_inside [b]
  keyBounded := inst.keyMax_pos
  accOdd := accAfter_odd ..
  doutByte := by simp [primedFrom, State.reset]
  errcodeFault := by simp [primedFrom, State.reset]
  faultIdle := by simp [primedFrom]
  genSeeded := by simp [primedFrom]
  pendLegal := by simp [primedFrom, State.reset]
  pendExpand := by simp [primedFrom, State.reset]
  pendKeyPush := by simp [primedFrom, State.reset]
  keyPresent := by simp [primedFrom]

theorem primed_keystreamInv (b : Byte) (n : Nat) : KeystreamInv inst (primedFrom [b] n) where
  filled _ := by
    have h := Memory.readBytes_writeBytes Memory.wf_nil 0 (seedBytes inst [b])
    rwa [seedBytes_length] at h
  seeded := by simp [primedFrom]
  primed _ := ⟨rfl, rfl⟩
  streaming := by simp [primedFrom]

/-- The completion of the pending KEY_PUSH. -/
theorem pushing_step : step pushing = .next { State.reset with key := [0x74] } := rfl

/-- Power is lost. -/
theorem powerLoss_step : step (idleWith [.powerLoss]) = .next (losePower State.reset) := rfl

theorem idleWith_losesPower : losesPower (idleWith [.powerLoss]) := ⟨by decide, [], rfl⟩

/-- A completion, and a loss of power. -/
theorem witness_StepKeepsTheBlockInvariant :
    (MachineInv Config.params pushing ∧ step pushing = .next { State.reset with key := [0x74] }) ∧
      MachineInv Config.params (idleWith [.powerLoss]) ∧ step (idleWith [.powerLoss]) = .next (losePower State.reset) :=
  ⟨⟨machineInv_of_blockInv pushing_blockInv, pushing_step⟩,
    machineInv_of_blockInv (idle_blockInv rfl rfl rfl rfl rfl rfl (.inl rfl)), powerLoss_step⟩

theorem witness_StepKeepsTheKeystreamInvariant :
    MachineInv Config.params pushing ∧ (pushing.line ≠ .unpowered → KeystreamInv Config.params pushing) ∧
      step pushing = .next { State.reset with key := [0x74] } ∧
      ({ State.reset with key := [0x74] } : State).line ≠ .unpowered :=
  ⟨machineInv_of_blockInv pushing_blockInv, fun _ => idle_keystreamInv rfl, pushing_step, by decide⟩

theorem witness_AccumulatorIsOddAndNeverZero :
    (pushing.line ≠ .unpowered → pushing.acc.getLsbD 0 = true) ∧
      step pushing = .next { State.reset with key := [0x74] } ∧
      ({ State.reset with key := [0x74] } : State).line ≠ .unpowered ∧ State.reset.acc.getLsbD 0 = true :=
  ⟨by decide, pushing_step, by decide, by decide⟩

theorem witness_StepRunsTheDecodedCommand :
    ((idleWith [.write .cmd 0x05000080]).line = .running ∧ engineTurn (idleWith [.write .cmd 0x05000080]) = false ∧
        (idleWith [.write .cmd 0x05000080]).input = .write .cmd 0x05000080 :: [] ∧
        decode 0x05000080 = .command (.xform 0x80)) ∧
      ((idleWith [.write .cmd 0x00000000]).line = .running ∧ engineTurn (idleWith [.write .cmd 0x00000000]) = false ∧
        (idleWith [.write .cmd 0x00000000]).input = .write .cmd 0x00000000 :: []) ∧ engineTurn pushing = true := by decide

theorem witness_AtMostOneCompletionBetweenAccesses :
    engineTurn pushing = true ∧ step pushing = .next { State.reset with key := [0x74] } := ⟨by decide, pushing_step⟩

theorem witness_ReadsAndOtherWritesHaveNoEffect :
    ((idleWith [.read .dout]).line = .running ∧ engineTurn (idleWith [.read .dout]) = false ∧
        (idleWith [.read .dout]).input = .read .dout :: []) ∧
      (idleWith [.write .reserved7 1]).line = .running ∧ engineTurn (idleWith [.write .reserved7 1]) = false ∧
        HostReg.reserved7 ≠ .cmd ∧ (idleWith [.write .reserved7 1]).input = .write .reserved7 1 :: [] := by decide

/-- One step for each disjunct: a read, a write to CMD, the reset input, a loss of power. -/
theorem witness_OnlyCmdWritesAndResetChangeTheBlock :
    (engineTurn (idleWith [.read .id]) = false ∧
      step (idleWith [.read .id]) = .next { State.reset with observed := [.value .id 0x4D544B53] }) ∧
    (engineTurn (idleWith [.write .cmd 0x03000000]) = false ∧
      step (idleWith [.write .cmd 0x03000000]) = .next { State.reset with phase := .fault, errcode := .order }) ∧
    (engineTurn { faulted with input := [.resetAssert] } = false ∧
      step { faulted with input := [.resetAssert] } = .next { State.reset with line := .inReset }) ∧
    (engineTurn (idleWith [.powerLoss]) = false ∧ step (idleWith [.powerLoss]) = .next (losePower State.reset)) :=
  ⟨⟨by decide, rfl⟩, ⟨by decide, rfl⟩, ⟨by decide, rfl⟩, by decide, powerLoss_step⟩

/-- A completion that writes KEY, and a loss of power. -/
theorem witness_WhichCompletionWritesWhichState :
    step pushing = .next { State.reset with key := [0x74] } ∧
      step (idleWith [.powerLoss]) = .next (losePower State.reset) := ⟨pushing_step, powerLoss_step⟩

theorem witness_PhaseNeverMovesBackward :
    (BlockInv Config.params pushing ∧ step pushing = .next { State.reset with key := [0x74] }) ∧
      BlockInv Config.params (idleWith [.powerLoss]) ∧ step (idleWith [.powerLoss]) = .next (losePower State.reset) :=
  ⟨⟨pushing_blockInv, pushing_step⟩, idle_blockInv rfl rfl rfl rfl rfl rfl (.inl rfl), powerLoss_step⟩

/-- One state and word for each clause, in the clauses' order. -/
theorem witness_CmdWriteFollowsTheIssueProcedure :
    decode 0xFF000000 = .command .srst ∧
    (decode 0x00000000 ≠ .command .srst ∧ faulted.phase = .fault) ∧
    (decode 0x02000000 ≠ .command .srst ∧ pushing.phase ≠ .fault ∧ pushing.pend ≠ none) ∧
    (decode 0x02000001 = .illegal .dataNonzero ∧ State.reset.phase ≠ .fault ∧ State.reset.pend = none) ∧
    (decode 0x03000000 = .command Pending.seed.command ∧ State.reset.phase ≠ .fault ∧ State.reset.pend = none ∧
      ¬ tableLegal .seed State.reset.phase) ∧
    (decode 0x02000000 = .command .expand ∧ State.reset.phase = .idle ∧ State.reset.pend = none ∧
      State.reset.key.length = 0) ∧
    (decode 0x010000FF = .command (.keyPush 0xFF) ∧ fullKey.phase = .idle ∧ fullKey.pend = none ∧
      fullKey.key.length = Config.params.keyMax) ∧
    (decode 0x010000FF = .command (Pending.keyPush 0xFF).command ∧ tableLegal (.keyPush 0xFF) almostFullKey.phase ∧
      almostFullKey.pend = none ∧ (Pending.keyPush 0xFF = .expand → almostFullKey.key.length ≠ 0) ∧
      ∀ b, Pending.keyPush 0xFF = .keyPush b → almostFullKey.key.length < Config.params.keyMax) := by
  refine ⟨by decide, by decide, by decide, by decide, ⟨by decide, by decide, by decide, by simp [tableLegal, State.reset]⟩,
    by decide, ⟨by decide, rfl, rfl, by simp [fullKey]⟩, ⟨by decide, rfl, rfl, by simp, ?_⟩⟩
  intro b _
  simp [almostFullKey, Params.keyMax]

theorem witness_CommandsFollowThePhaseTable :
    (State.reset.phase ≠ .fault ∧ State.reset.pend = none) ∧
      (tableLegal (.keyPush 0x74) pushing.phase ∧
        complete toy (.keyPush 0x74) pushing = .next { State.reset with key := [0x74] }) :=
  ⟨by decide, rfl, rfl⟩

theorem witness_FaultIgnoresEveryWordButSrst :
    faulted.phase = .fault ∧ decode 0xFF000001 ≠ .command .srst := by decide

/-- A block in FAULT whose next input is given. -/
def faultedWith (e : HostInput) : State := { faulted with input := [e] }

/-- One step for each case: an ignored command, SRST, the reset input, a loss of power. -/
theorem witness_OnlySrstAndHardResetLeaveFault :
    (∀ e, (faultedWith e).phase = .fault ∧ (faultedWith e).pend = none) ∧
      step (faultedWith (.write .cmd 0x02000000)) = .next faulted ∧
      step (faultedWith (.write .cmd 0xFF000000)) = .next State.reset ∧
      step (faultedWith .resetAssert) = .next { State.reset with line := .inReset } ∧
      step (faultedWith .powerLoss) = .next (losePower faulted) := ⟨fun _ => ⟨rfl, rfl⟩, rfl, rfl, rfl, rfl⟩

theorem witness_CompletionNeverFaults : BlockInv Config.params pushing ∧ pushing.pend ≠ none :=
  ⟨pushing_blockInv, by decide⟩

theorem witness_KeyPushAppendsItsByte :
    (almostFullKey.phase = .idle ∧ almostFullKey.pend = none ∧ almostFullKey.key.length < Config.params.keyMax) ∧
      ((primedFrom [0x61] 0).phase ≠ .fault ∧ (primedFrom [0x61] 0).pend = none ∧ (primedFrom [0x61] 0).phase ≠ .idle) ∧
      (fullKey.phase = .idle ∧ fullKey.pend = none ∧ fullKey.key.length = Config.params.keyMax) :=
  ⟨⟨rfl, rfl, by simp [almostFullKey, Params.keyMax]⟩, ⟨by simp [primedFrom], rfl, by simp [primedFrom]⟩, rfl, rfl,
    by simp [fullKey]⟩

theorem witness_ExpandFillsTheSeedBuffer :
    (fullKey.phase = .idle ∧ fullKey.pend = none ∧ fullKey.key.length ≠ 0 ∧ Memory.wf fullKey.sb) ∧
      ((primedFrom [0x61] 0).phase ≠ .fault ∧ (primedFrom [0x61] 0).pend = none ∧ (primedFrom [0x61] 0).phase ≠ .idle) ∧
      (State.reset.phase = .idle ∧ State.reset.pend = none ∧ State.reset.key.length = 0) :=
  ⟨⟨rfl, rfl, by simp [fullKey, inst.keyMax_pos.ne'], Memory.wf_nil⟩, ⟨by simp [primedFrom], rfl, by simp [primedFrom]⟩,
    rfl, rfl, rfl⟩

theorem witness_SeedReplacesTheGenerator :
    (({ State.reset with phase := .expanded } : State).phase = .expanded ∧
        ({ State.reset with phase := .expanded } : State).pend = none) ∧
      (State.reset.phase ≠ .fault ∧ State.reset.pend = none ∧ State.reset.phase ≠ .expanded) := by decide

theorem witness_PrimeMultipliesAllWarmUpWords :
    (({ State.reset with phase := .seeded, gen := some (genAb 0) } : State).phase = .seeded ∧
        ({ State.reset with phase := .seeded, gen := some (genAb 0) } : State).pend = none ∧
        ({ State.reset with phase := .seeded, gen := some (genAb 0) } : State).gen = some (genAb 0)) ∧
      (State.reset.phase ≠ .fault ∧ State.reset.pend = none ∧ State.reset.phase ≠ .seeded) := by decide

theorem witness_XformOutputsTheTransformedByte :
    ((({ State.reset with phase := .streaming, gen := some (genAb 4) } : State).phase = .primed ∨
        ({ State.reset with phase := .streaming, gen := some (genAb 4) } : State).phase = .streaming) ∧
        ({ State.reset with phase := .streaming, gen := some (genAb 4) } : State).pend = none ∧
        ({ State.reset with phase := .streaming, gen := some (genAb 4) } : State).gen = some (genAb 4)) ∧
      ((({ State.reset with phase := .seeded } : State).phase = .idle ∨
        ({ State.reset with phase := .seeded } : State).phase = .expanded ∨
        ({ State.reset with phase := .seeded } : State).phase = .seeded) ∧
        ({ State.reset with phase := .seeded } : State).pend = none) := by decide

theorem witness_SrstResetsTheWholeBlock :
    (0xFF000001 : Word).extractLsb' 24 8 = 0xFF ∧ (0xFF000001 : Word) ≠ 0xFF000000 := by decide

theorem witness_PendingCommandShowsOnlyBusy :
    State.reset.pend = none ∧
      exec (Pending.keyPush 0x74).command State.reset = .next (accept Config.params (.keyPush 0x74) State.reset) ∧
      (accept Config.params (.keyPush 0x74) State.reset).pend = some (.keyPush 0x74) := ⟨rfl, rfl, rfl⟩

theorem witness_KeyScheduleIsTheDigestChain :
    Memory.wf [] ∧ 1 ≤ 1 ∧ toy.seedWidth ≤ 3 * toy.digestLen ∧
      toy.defaults.seedWidth = 2496 ∧ toy.defaults.digestLen = 64 := by decide

theorem witness_KeyScheduleDependsOnKeyAndDigestAlone :
    toy.seedWidth = ({ toy with seedOrder := .be } : Params).seedWidth ∧
      toy.digestLen = ({ toy with seedOrder := .be } : Params).digestLen ∧
      toy.digestByte = ({ toy with seedOrder := .be } : Params).digestByte ∧
      Memory.wf [] ∧ Memory.wf [(0, 1), (11, 0xFF)] ∧
      (∀ x ∈ ([] : Memory), x.1 < toy.seedWidth) ∧
      ∀ x ∈ ([(0, 1), (11, 0xFF)] : Memory), x.1 < ({ toy with seedOrder := .be } : Params).seedWidth :=
  ⟨rfl, rfl, rfl, by decide, by decide, by decide, by decide⟩

theorem witness_OneDigestCallWhereItCoversTheBuffer :
    Memory.wf [] ∧ ({ toy with digestLenPred := 11 } : Params).seedWidth ≤
      ({ toy with digestLenPred := 11 } : Params).digestLen := by decide

theorem witness_LastDigestIsCopiedInPart :
    Memory.wf [] ∧ toy.digestLen < toy.seedWidth ∧ toy.seedWidth % toy.digestLen ≠ 0 := by decide

theorem witness_SeedBufferPrimitivesReadBackWhatWasWritten :
    (Memory.wf [] ∧ 10 + [0x7f, (0x80 : Byte)].length ≤ toy.seedWidth ∧
        4 + 6 ≤ toy.seedWidth ∧ (4 + 6 ≤ 10 ∨ 10 + [0x7f, (0x80 : Byte)].length ≤ 4)) ∧
      toy.seedWidth < 11 + [0x7f, (0x80 : Byte)].length ∧ toy.seedWidth < 0 + 13 := by decide

theorem witness_SeedWordsFollowTheSeedOrder :
    (2 < toy.seedWidth / 4 ∧ toy.seedOrder = .le ∧ 3 < 4) ∧
      ({ toy with seedOrder := .be } : Params).seedOrder = .be := by decide

theorem witness_StreamBytesComeFromTheirPlaces :
    ready (primedFrom [0x61] 0) ∧ atPosition Config.params (Config.params.nPrime + 0) (primedFrom [0x61] 0) ∧
      [0x55, (0x48 : Byte)][1]? = some 0x48 := ⟨⟨.inl rfl, rfl⟩, ⟨rfl, rfl⟩, rfl⟩

theorem witness_SecondSessionDecryptsTheFirst :
    BlockInv Config.params (primedFrom [0x61] 4) ∧ KeystreamInv Config.params (primedFrom [0x61] 4) ∧
      BlockInv Config.params (primedFrom [0x61] 9) ∧ KeystreamInv Config.params (primedFrom [0x61] 9) ∧
      (primedFrom [0x61] 4).phase = .primed ∧ (primedFrom [0x61] 4).pend = none ∧
      (primedFrom [0x61] 9).phase = .primed ∧ (primedFrom [0x61] 9).pend = none ∧
      (primedFrom [0x61] 4).key = (primedFrom [0x61] 9).key :=
  ⟨primed_blockInv _ _, primed_keystreamInv _ _, primed_blockInv _ _, primed_keystreamInv _ _, rfl, rfl, rfl, rfl, rfl⟩

theorem witness_KeystreamDependsOnThePassphraseAlone :
    (BlockInv Config.params (primedFrom [0x61] 4) ∧ KeystreamInv Config.params (primedFrom [0x61] 4) ∧
      BlockInv Config.params (primedFrom [0x61] 9) ∧ KeystreamInv Config.params (primedFrom [0x61] 9) ∧
      (primedFrom [0x61] 4).phase = .primed ∧ (primedFrom [0x61] 4).pend = none ∧
      (primedFrom [0x61] 9).phase = .primed ∧ (primedFrom [0x61] 9).pend = none ∧
      (primedFrom [0x61] 4).key = (primedFrom [0x61] 9).key) ∧ [0x00, (0x00 : Byte)].length = [0x55, (0x48 : Byte)].length :=
  ⟨witness_SecondSessionDecryptsTheFirst, rfl⟩

theorem witness_StatusShowsBusyFaultAndState :
    BlockInv Config.params faulted ∧ (readReg .status faulted).getLsbD 1 = true := ⟨faulted_blockInv, by decide⟩

theorem witness_KeylenIsTheLengthOfTheKey : BlockInv Config.params (primedFrom [0x61] 0) := primed_blockInv _ _

theorem witness_NoRegisterShowsTheSecrets :
    State.reset.phase = ({ State.reset with acc := 3, gen := some (genAb 1), sb := [(0, 1)] } : State).phase ∧
      State.reset.errcode = ({ State.reset with acc := 3, gen := some (genAb 1), sb := [(0, 1)] } : State).errcode ∧
      (State.reset.pend = none ↔
        ({ State.reset with acc := 3, gen := some (genAb 1), sb := [(0, 1)] } : State).pend = none) ∧
      State.reset.key.length =
        ({ State.reset with acc := 3, gen := some (genAb 1), sb := [(0, 1)] } : State).key.length ∧
      State.reset.dout = ({ State.reset with acc := 3, gen := some (genAb 1), sb := [(0, 1)] } : State).dout := by decide

theorem witness_WaitEndsAfterTheCompletion :
    BlockInv Config.params { pushing with input := [.wait], busyLeft := 2 } ∧
      ({ pushing with input := [.wait], busyLeft := 2 } : State).line = .running ∧
      ({ pushing with input := [.wait], busyLeft := 2 } : State).input = .wait :: [] ∧
      ({ pushing with input := [.wait], busyLeft := 2 } : State).pend = some (.keyPush 0x74) ∧
      BlockInv Config.params (idleWith [.wait]) ∧ (idleWith [.wait]).line = .running ∧
      (idleWith [.wait]).input = .wait :: [] ∧ (idleWith [.wait]).pend = none :=
  ⟨idle_blockInv rfl rfl rfl rfl rfl rfl (.inr ⟨0x74, rfl⟩), rfl, rfl, rfl,
    idle_blockInv rfl rfl rfl rfl rfl rfl (.inl rfl), rfl, rfl, rfl⟩

/-- The primed session with ENC 0x55 as its next input. -/
def encoding : State := { primedFrom [0x61] 0 with input := commandWait (.xform 0x55) ++ .read .dout :: [] }

theorem witness_EncodedByteIsReadBackAtThePort :
    BlockInv Config.params encoding ∧ encoding.line = .running ∧ ready encoding ∧
      encoding.gen =
        some (genAfter inst (inst.genSeed (seedWords inst (filledSb [0x61]))) inst.nPrime) ∧
      encoding.input = commandWait (.xform 0x55) ++ .read .dout :: [] := by
  refine ⟨?_, rfl, ⟨.inl rfl, rfl⟩, rfl, rfl⟩
  have h := primed_blockInv 0x61 0
  exact ⟨⟨h.sbCanonical, h.sbInside, h.keyBounded, h.doutByte⟩, h.accOdd, h.errcodeFault, h.faultIdle, h.genSeeded,
    h.pendLegal, h.pendExpand, h.pendKeyPush, h.keyPresent⟩

theorem witness_HardResetInput :
    (engineTurn (idleWith [.resetAssert]) = false ∧ (idleWith [.resetAssert]).input = .resetAssert :: []) ∧
      (({ idleWith [.wait] with line := .inReset } : State).line = .inReset ∧
        ({ idleWith [.wait] with line := .inReset } : State).input = .wait :: [] ∧ HostInput.wait.isAccess = true) ∧
      ({ idleWith [.resetRelease] with line := .inReset } : State).line = .inReset ∧
        ({ idleWith [.resetRelease] with line := .inReset } : State).input = .resetRelease :: [] := by decide

theorem witness_PowerLossRequiresAHardReset :
    (engineTurn (idleWith [.powerLoss]) = false ∧ (idleWith [.powerLoss]).input = .powerLoss :: []) ∧
      (({ idleWith [.read .id] with line := .unpowered } : State).line = .unpowered ∧
        ({ idleWith [.read .id] with line := .unpowered } : State).input = .read .id :: [] ∧
        (HostInput.read .id).isAccess = true) ∧
      (({ idleWith [.resetRelease] with line := .unpowered } : State).line = .unpowered ∧
        (∀ rest, ({ idleWith [.resetRelease] with line := .unpowered } : State).input ≠ .resetAssert :: rest) ∧
        step { idleWith [.resetRelease] with line := .unpowered } = .next { State.reset with line := .unpowered }) ∧
      ({ idleWith [.resetAssert] with line := .unpowered } : State).line = .unpowered ∧
        ({ idleWith [.resetAssert] with line := .unpowered } : State).input = .resetAssert :: [] :=
  ⟨by decide, by decide, ⟨rfl, by simp [idleWith], rfl⟩, by decide⟩

theorem witness_BusAccessesReachTheirRegister :
    (31 < 32 ∧ (4 ≠ 4 ∨ 31 % 4 ≠ 0) ∧ toy.bridgeSubword = .busFault) ∧
      (0 < 32 ∧ (1 ≠ 4 ∨ 0 % 4 ≠ 0) ∧
        ({ toy with bridgeSubword := .platformDefined } : Params).bridgeSubword = .platformDefined) ∧
      (0x3FFFFFFF < toy.ksgBase ∨ toy.ksgBase + 32 ≤ 0x3FFFFFFF) ∧
      (0x40000020 < toy.ksgBase ∨ toy.ksgBase + 32 ≤ 0x40000020) ∧
      ((idleWith [.busRead 0x40000014 4]).line = .running ∧ engineTurn (idleWith [.busRead 0x40000014 4]) = false ∧
        (idleWith [.busRead 0x40000014 4]).input = .busRead 0x40000014 4 :: []) ∧
      ((idleWith [.busWrite 0x4000000C 4 1]).line = .running ∧ engineTurn (idleWith [.busWrite 0x4000000C 4 1]) = false ∧
        (idleWith [.busWrite 0x4000000C 4 1]).input = .busWrite 0x4000000C 4 1 :: []) := by decide

theorem witness_MnemonicsAssembleToTheirWords : 255 < 256 ∧ 256 ≤ 256 := by decide

theorem witness_PseudoInstructionsExpand : (∀ x ∈ [0x7F, 0], x < 128) ∧ 255 < 256 := by decide

/-- Two blocks that hold different data before the same loss. -/
theorem witness_PowerLossRetainsNothing :
    losesPower (idleWith [.powerLoss]) ∧ losesPower (faultedWith .powerLoss) ∧
      (idleWith [.powerLoss]).powerLosses = (faultedWith .powerLoss).powerLosses ∧
      step (idleWith [.powerLoss]) = .next (losePower State.reset) ∧
      step (faultedWith .powerLoss) = .next (losePower faulted) :=
  ⟨idleWith_losesPower, ⟨by decide, [], rfl⟩, rfl, powerLoss_step, rfl⟩

end Sys2Proof.Tests
end

/-! SUPPORT. The statements about the block's state (10_state.md), and the facts they rest on: what a completion does,
what a step does to the block, how each operation keeps the invariant, and the fields of the registers. -/

namespace Sys2Proof.Machine

/-! ## What a completion step does, said once (42_control.md R106) -/

/-- The completion of a pending command from `s`, row by row: the grounds on which it has a next state, and that state. -/
inductive Completion (c : Params) (s : State) : Pending → State → Prop where
  | keyPush (b : Byte) : Completion c s (.keyPush b) (finish (keyAppend b s))
  | expand (r : KsRun) (run : ks c s.key s.sb = some r) :
      Completion c s .expand (finish { s with sb := r.sb, phase := .expanded })
  | seed : Completion c s .seed (finish { s with gen := some (c.genSeed (seedWords c s.sb)), phase := .seeded })
  | prime (g : GenState) (seeded : s.gen = some g) :
      Completion c s .prime (finish { s with
        acc := (accRounds c c.nPrime 0x00000001 g).1
        gen := some (accRounds c c.nPrime 0x00000001 g).2
        phase := .primed })
  | xform (b : Byte) (g : GenState) (seeded : s.gen = some g) :
      Completion c s (.xform b) (finish { s with
        dout := zext32 (ksByte s.acc ^^^ b)
        acc := (accRound c s.acc g).1
        gen := some (accRound c s.acc g).2
        phase := .streaming })

/-- `Completion` is the model's `complete`, where that gives a next state. -/
theorem complete_eq_next_iff {c : Params} {p : Pending} {s t : State} :
    complete c p s = .next t ↔ Completion c s p t := by
  constructor
  · intro h
    cases p with
    | keyPush b => cases h; exact .keyPush b
    | expand =>
      simp only [complete, completeExpand] at h
      split at h <;> cases h
      next r hr => exact .expand r hr
    | seed => cases h; exact .seed
    | prime =>
      simp only [complete, completePrime] at h
      split at h <;> cases h
      next g hg => exact .prime g hg
    | xform b =>
      simp only [complete, completeXform] at h
      split at h <;> cases h
      next g hg => exact .xform b g hg
  · rintro (_ | ⟨r, hr⟩ | _ | ⟨g, hg⟩ | ⟨b, g, hg⟩)
    · rfl
    · simp [complete, completeExpand, hr]
    · rfl
    · simp [complete, completePrime, hg]
    · simp [complete, completeXform, hg]

theorem Completion.pend_eq_none {c : Params} {s t : State} {p : Pending} (h : Completion c s p t) : t.pend = none := by
  cases h <;> rfl

theorem Completion.errcode_eq {c : Params} {s t : State} {p : Pending} (h : Completion c s p t) :
    t.errcode = s.errcode := by
  cases h <;> rfl

/-! ### The phase table (10_state.md R40) -/

theorem legalIn_iff_tableLegal (p : Pending) (ph : Phase) : legalIn p ph = true ↔ tableLegal p ph := by
  cases p <;> simp [legalIn, tableLegal]

/-- A completion from a phase of its row leaves PHASE as the row says; KEY_PUSH, which writes no PHASE, stays in IDLE. -/
theorem Completion.phase_eq {c : Params} {s t : State} {p : Pending} (h : Completion c s p t)
    (legal : tableLegal p s.phase) : t.phase = tableAfter p := by
  cases h with
  | keyPush b => exact legal
  | _ => rfl

theorem tableAfter_ne_fault (p : Pending) : tableAfter p ≠ .fault := by
  cases p <;> simp [tableAfter]

/-- Every row of the table leads onward in the order of 10_state.md R32, or stays. -/
theorem rank_le_rank_tableAfter {p : Pending} {ph : Phase} (legal : tableLegal p ph) :
    ph.rank ≤ (tableAfter p).rank := by
  cases p with
  | xform b => rcases legal with rfl | rfl <;> simp [tableAfter, Phase.rank]
  | _ => cases legal; simp [tableAfter, Phase.rank]

theorem Phase.rank_le_fault (ph : Phase) : ph.rank ≤ Phase.fault.rank := by
  cases ph <;> decide

/-- A command's own check raises KEY_OVERFLOW or KEY_EMPTY, never ORDER. -/
theorem lateCheck_ne_order (p : Pending) (s : State) : lateCheck p s ≠ some .order := by
  cases p <;> simp [lateCheck, keyPushCheck, expandCheck]

/-- Two fault entries of a state are the same exactly when their codes are. -/
theorem raiseFault_inj {e e' : ErrCode} {s : State} : raiseFault e s = raiseFault e' s ↔ e = e' :=
  ⟨congrArg State.errcode, congrArg (raiseFault · s)⟩

/-- With nothing pending and outside FAULT, a command is an ORDER fault exactly outside its row (10_state.md R40). -/
theorem issueCommand_eq_order_iff (p : Pending) {s : State} (notFault : s.phase ≠ .fault) (idle : s.pend = none) :
    issueCommand Config.params p (lateCheck p s) s = raiseFault .order s ↔ ¬ tableLegal p s.phase := by
  rw [← legalIn_iff_tableLegal, Bool.not_eq_true]
  rcases issueCommand_cases Config.params p (lateCheck p s) s with
    ⟨hf, -⟩ | ⟨-, busy, -⟩ | ⟨-, -, illegal, e⟩ | ⟨-, -, legal, x, hx, e⟩ | ⟨-, -, legal, -, e⟩
  · exact absurd hf notFault
  · exact absurd idle busy
  · exact iff_of_true e illegal
  · refine iff_of_false (fun h => ?_) (by simp [legal])
    rw [e, raiseFault_inj] at h
    exact lateCheck_ne_order p s (h ▸ hx)
  · refine iff_of_false (fun h => ?_) (by simp [legal])
    have := congrArg State.pend (e.symm.trans h)
    simp at this

/-! ### KEY and the generator -/

/-- A completion past EXPAND starts where there is a passphrase; KEY_PUSH makes one, EXPAND's check asks for one. -/
theorem Completion.key_ne_nil {c : Params} {s t : State} {p : Pending} (h : Completion c s p t)
    (legal : tableLegal p s.phase) (expandKey : p = .expand → s.key ≠ [])
    (filledKey : s.phase.filled = true → s.key ≠ []) : t.key ≠ [] := by
  cases h with
  | keyPush b => simp
  | expand r run => exact expandKey rfl
  | seed => exact filledKey (by rw [show s.phase = .expanded from legal]; rfl)
  | prime g seeded => exact filledKey (by rw [show s.phase = .seeded from legal]; rfl)
  | xform b g seeded =>
    rcases legal with hp | hp <;> exact filledKey (by rw [hp]; rfl)

/-- Wherever a completion leads to a phase that runs the generator, it leaves the generator seeded (10_state.md R43). -/
theorem Completion.gen_isSome {c : Params} {s t : State} {p : Pending} (h : Completion c s p t)
    (legal : tableLegal p s.phase) (gen : t.phase.generating = true) : t.gen.isSome = true := by
  cases h with
  | keyPush b =>
    rw [finish_phase, keyAppend_phase, show s.phase = .idle from legal] at gen
    cases gen
  | expand r run => cases gen
  | _ => rfl

/-! ### The accumulator stays odd (10_state.md R42) -/

theorem accRounds_odd (c : Params) (n : Nat) {acc : Word} (g : GenState) (h : acc.getLsbD 0 = true) :
    (accRounds c n acc g).1.getLsbD 0 = true := by
  induction n generalizing acc g with
  | zero => exact h
  | succ n ih => exact ih _ (mul32_oddMultiplier_odd _ h)

theorem Completion.acc_odd {c : Params} {s t : State} {p : Pending} (h : Completion c s p t)
    (odd : s.acc.getLsbD 0 = true) : t.acc.getLsbD 0 = true := by
  cases h with
  | prime g seeded => exact accRounds_odd c _ g (by decide)
  | xform b g seeded => exact mul32_oddMultiplier_odd _ odd
  | _ => exact odd

/-! ### The shape of the registers -/

/-- The seed buffer is canonical and holds no byte outside SB[0..W): the part of `StoreInv` the key schedule can touch. -/
def SeedBufferShape (c : Params) (m : Memory) : Prop :=
  Memory.wf m ∧ ∀ x ∈ m, x.1 < c.seedWidth

theorem SeedBufferShape.memWrite {c : Params} {m m' : Memory} {a : Nat} {v : List Byte} (h : SeedBufferShape c m)
    (hw : memWrite c m a v = some m') : SeedBufferShape c m' := by
  obtain ⟨hwf, hin, -, -⟩ := memWrite_spec hw h.1 h.2
  exact ⟨hwf, hin⟩

/-- Each turn of the key schedule's loop writes SB by one MemWrite. -/
theorem SeedBufferShape.ksLoop {c : Params} {fuel off rem : Nat} {r r' : KsRun} (h : SeedBufferShape c r.sb)
    (hl : ksLoop c fuel off rem r = some r') : SeedBufferShape c r'.sb := by
  induction fuel generalizing off rem r with
  | zero =>
    simp only [Machine.ksLoop] at hl
    split at hl <;> cases hl
    exact h
  | succ fuel ih =>
    simp only [Machine.ksLoop] at hl
    split at hl
    · cases hl; exact h
    · split at hl
      · cases hl
      · split at hl
        · cases hl
        next sb hw => exact ih (h.memWrite hw) hl

theorem SeedBufferShape.ks {c : Params} {key : List Byte} {m : Memory} {r : KsRun} (h : SeedBufferShape c m)
    (hk : ks c key m = some r) : SeedBufferShape c r.sb := by
  unfold Machine.ks at hk
  split at hk
  · cases hk
  next sb hw => exact (h.memWrite hw).ksLoop hk

/-- DOUT is written with a byte in its low end (10_state.md R29). -/
theorem zext32_high (o : Byte) : (zext32 o).extractLsb' 8 24 = 0 := by
  ext k hk
  simp [zext32]

theorem Completion.storeInv {c : Params} {s t : State} {p : Pending} (h : Completion c s p t) (inv : StoreInv c s)
    (room : ∀ b, p = .keyPush b → s.key.length < c.keyMax) : StoreInv c t := by
  obtain ⟨hwf, hin, hkey, hdout⟩ := inv
  cases h with
  | keyPush b => exact ⟨hwf, hin, by simpa using room b rfl, hdout⟩
  | expand r run =>
    obtain ⟨hwf', hin'⟩ := SeedBufferShape.ks ⟨hwf, hin⟩ run
    exact ⟨hwf', hin', hkey, hdout⟩
  | seed => exact ⟨hwf, hin, hkey, hdout⟩
  | prime g seeded => exact ⟨hwf, hin, hkey, hdout⟩
  | xform b g seeded => exact ⟨hwf, hin, hkey, zext32_high _⟩

/-! ## What a step does to the block, said once -/

/-- A block without power keeps its line dark until the reset input is asserted, which resets it (60_exceptions.md
R123). -/
theorem step_unpowered {s t : State} (dark : s.line = .unpowered) (h : step s = .next t) :
    t.line = .unpowered ∨ blockReset t := by
  have turn : engineTurn s = false := by simp [engineTurn, dark]
  rw [step_host turn] at h
  cases hi : s.input with
  | nil =>
    rw [hostTurn_nil hi] at h
    cases h
    exact .inl dark
  | cons e rest =>
    rw [hostTurn_cons hi] at h
    cases e with
    | resetAssert => cases h; exact .inr (blockReset_assertReset _)
    | resetRelease =>
      cases h
      left
      simp [releaseReset, dark]
    | powerLoss => cases h; exact .inl rfl
    | _ => simp [takeInput, atPort, dark] at h

/-- What a step from `s` does to the eight pieces of the block. `s'` is `s` with an input taken off the host's list. -/
inductive BlockStep (s : State) : State → Prop where
  | unchanged {t : State} (same : sameBlock t s) (dark : s.line = .unpowered → t.line = .unpowered) : BlockStep s t
  | reset {t : State} (values : blockReset t) : BlockStep s t
  | raised {s' : State} (e : ErrCode) (live : s.line = .running) (same : sameBlock s' s) (code : e ≠ .none) :
      BlockStep s (raiseFault e s')
  | accepted {s' : State} (p : Pending) (live : s.line = .running) (same : sameBlock s' s) (grounds : Accepted p s') :
      BlockStep s (accept Config.params p s')
  | completed {t : State} (p : Pending) (turn : engineTurn s = true) (pending : s.pend = some p)
      (done : Completion Config.params s p t) : BlockStep s t
  | powerLost (s' : State) (loses : losesPower s) : BlockStep s (losePower s')

theorem blockStep_of_step {s t : State} (h : step s = .next t) : BlockStep s t := by
  rcases step_cases h with ⟨turn, p, hp, hc⟩ | ⟨_, same⟩ | ⟨_, _, _, w, s', _, _, live, rfl, hw⟩ | ⟨_, _, _, rfl⟩ |
      ⟨turn, rest, hi, rfl⟩
  · exact .completed p turn hp (complete_eq_next_iff.1 hc)
  · by_cases dark : s.line = .unpowered
    · rcases step_unpowered dark h with ht | ht
      · exact .unchanged same fun _ => ht
      · exact .reset ht
    · exact .unchanged same fun hd => absurd hd dark
  · rcases issueWord_cases hw with ⟨_, rfl, _⟩ | ⟨e, he, _, rfl⟩ | ⟨_, rfl⟩ | ⟨p, _, ha, rfl⟩
    · exact .unchanged (sameBlock_refl s) id
    · exact .raised e live (sameBlock_refl s) he
    · exact .reset (blockReset_resetBlock _)
    · exact .accepted p live (sameBlock_refl s) ha
  · exact .reset (blockReset_assertReset _)
  · exact .powerLost _ ⟨turn, rest, hi⟩

/-! ### KEY, SB, GEN, ACC and DOUT -/

theorem acc_eq_of_sameBlock {s t : State} (same : sameBlock t s) : t.acc = s.acc := by
  obtain ⟨-, -, -, -, -, -, hacc, -⟩ := same
  exact hacc

/-- The five pieces of the block that only a completion, a reset or a loss of power writes. -/
def sameData (s t : State) : Prop :=
  t.key = s.key ∧ t.sb = s.sb ∧ t.gen = s.gen ∧ t.acc = s.acc ∧ t.dout = s.dout

theorem sameData_of_sameBlock {s t : State} (same : sameBlock t s) : sameData s t := by
  obtain ⟨-, -, -, hkey, hsb, hgen, hacc, hdout⟩ := same
  exact ⟨hkey, hsb, hgen, hacc, hdout⟩

/-- A fault entry and an acceptance leave KEY, SB, GEN, ACC and DOUT alone (42_control.md R105, 60_exceptions.md R114). -/
theorem BlockStep.data_cases {s t : State} (h : BlockStep s t) :
    blockReset t ∨ (losesPower s ∧ t.line = .unpowered) ∨ sameData s t ∨
      (engineTurn s = true ∧ ∃ p, s.pend = some p ∧ Completion Config.params s p t) := by
  cases h with
  | unchanged same dark => exact .inr (.inr (.inl (sameData_of_sameBlock same)))
  | reset values => exact .inl values
  | raised e live same code => exact .inr (.inr (.inl (sameData_of_sameBlock same :)))
  | accepted p live same grounds => exact .inr (.inr (.inl (sameData_of_sameBlock same :)))
  | completed p turn pending done => exact .inr (.inr (.inr ⟨turn, p, pending, done⟩))
  | powerLost s' loses => exact .inr (.inl ⟨loses, rfl⟩)

/-! ## The invariants, operation by operation -/

theorem StoreInv.of_sameBlock {c : Params} {s t : State} (inv : StoreInv c s) (same : sameBlock t s) :
    StoreInv c t := by
  obtain ⟨-, -, -, hkey, hsb, -, -, hdout⟩ := same
  exact ⟨hsb ▸ inv.sbCanonical, hsb ▸ inv.sbInside, hkey ▸ inv.keyBounded, hdout ▸ inv.doutByte⟩

theorem BlockInv.of_sameBlock {c : Params} {s t : State} (inv : BlockInv c s) (same : sameBlock t s) :
    BlockInv c t := by
  have store := inv.toStoreInv.of_sameBlock same
  obtain ⟨hph, herr, hpend, hkey, -, hgen, hacc, -⟩ := same
  exact
    { toStoreInv := store
      accOdd := hacc ▸ inv.accOdd
      errcodeFault := herr ▸ hph ▸ inv.errcodeFault
      faultIdle := hpend ▸ hph ▸ inv.faultIdle
      genSeeded := hgen ▸ hph ▸ inv.genSeeded
      pendLegal := hpend ▸ hph ▸ inv.pendLegal
      pendExpand := hkey ▸ hpend ▸ inv.pendExpand
      pendKeyPush := hkey ▸ hpend ▸ inv.pendKeyPush
      keyPresent := hkey ▸ hph ▸ inv.keyPresent }

theorem blockReset_reset : blockReset State.reset := ⟨rfl, rfl, rfl, rfl, rfl, rfl, rfl, rfl⟩

theorem blockInv_of_blockReset (c : Params) {s : State} (h : blockReset s) : BlockInv c s := by
  obtain ⟨hph, herr, hpend, hkey, hsb, hgen, hacc, hdout⟩ := h
  have store : StoreInv c s := ⟨hsb ▸ Memory.wf_nil, by simp [hsb], by simp [hkey], by simp [hdout]⟩
  refine ⟨store, ?_, ?_, ?_, ?_, ?_, ?_, ?_, ?_⟩ <;>
    simp [hph, herr, hpend, hkey, hacc, Phase.generating, Phase.filled]

theorem BlockInv.raiseFault {c : Params} {s : State} (inv : BlockInv c s) {e : ErrCode} (code : e ≠ .none) :
    BlockInv c (raiseFault e s) where
  toStoreInv := ⟨inv.sbCanonical, inv.sbInside, inv.keyBounded, inv.doutByte⟩
  accOdd := inv.accOdd
  errcodeFault := by simp [code]
  faultIdle _ := rfl
  genSeeded h := by cases h
  pendLegal := by simp
  pendExpand := by simp
  pendKeyPush := by simp
  keyPresent h := by cases h

theorem BlockInv.accept {s : State} (inv : BlockInv Config.params s) {p : Pending} (grounds : Accepted p s) :
    BlockInv Config.params (accept Config.params p s) where
  toStoreInv := ⟨inv.sbCanonical, inv.sbInside, inv.keyBounded, inv.doutByte⟩
  accOdd := inv.accOdd
  errcodeFault := inv.errcodeFault
  faultIdle hf := absurd hf grounds.notFault
  genSeeded := inv.genSeeded
  pendLegal := by
    rintro _ ⟨⟩
    exact grounds.legal
  pendExpand h := grounds.expandKey (Option.some.inj h)
  pendKeyPush b h := grounds.keyPushRoom b (Option.some.inj h)
  keyPresent := inv.keyPresent

/-- A pending command stands in a phase of its row. -/
theorem BlockInv.tableLegal {c : Params} {s : State} (inv : BlockInv c s) {p : Pending} (pending : s.pend = some p) :
    tableLegal p s.phase :=
  (legalIn_iff_tableLegal p s.phase).1 (inv.pendLegal p pending)

theorem BlockInv.errcode_eq_none {c : Params} {s : State} (inv : BlockInv c s) {p : Pending} (pending : s.pend = some p) :
    s.errcode = .none := by
  refine inv.errcodeFault.2 fun hf => ?_
  have := inv.faultIdle hf
  simp [pending] at this

theorem Completion.blockInv {c : Params} {s t : State} {p : Pending} (h : Completion c s p t) (inv : BlockInv c s)
    (pending : s.pend = some p) : BlockInv c t := by
  have legal := inv.tableLegal pending
  have none_pending := h.pend_eq_none
  have notFault : t.phase ≠ .fault := h.phase_eq legal ▸ tableAfter_ne_fault p
  exact
    { toStoreInv := h.storeInv inv.toStoreInv fun b hb => inv.pendKeyPush b (hb ▸ pending)
      accOdd := h.acc_odd inv.accOdd
      errcodeFault := iff_of_true (h.errcode_eq.trans (inv.errcode_eq_none pending)) notFault
      faultIdle := fun _ => none_pending
      genSeeded := h.gen_isSome legal
      pendLegal := by simp [none_pending]
      pendExpand := by simp [none_pending]
      pendKeyPush := by simp [none_pending]
      keyPresent := fun _ => h.key_ne_nil legal (fun hp => inv.pendExpand (hp ▸ pending)) inv.keyPresent }

theorem ne_unpowered_of_running {s : State} (live : s.line = .running) : s.line ≠ .unpowered := by
  simp [live]

theorem ne_unpowered_of_engineTurn {s : State} (turn : engineTurn s = true) : s.line ≠ .unpowered :=
  ne_unpowered_of_running ((engineTurn_iff s).1 turn).1

theorem BlockStep.machineInv {s t : State} (h : BlockStep s t) (inv : MachineInv Config.params s) :
    MachineInv Config.params t := by
  obtain ⟨store, block⟩ := inv
  cases h with
  | unchanged same dark =>
    exact ⟨store.of_sameBlock same, fun ht => (block (ht ∘ dark)).of_sameBlock same⟩
  | reset values => exact machineInv_of_blockInv (blockInv_of_blockReset _ values)
  | raised e live same code =>
    exact machineInv_of_blockInv (((block (ne_unpowered_of_running live)).of_sameBlock same).raiseFault code)
  | accepted p live same grounds =>
    exact machineInv_of_blockInv (((block (ne_unpowered_of_running live)).of_sameBlock same).accept grounds)
  | completed p turn pending done =>
    exact machineInv_of_blockInv (done.blockInv (block (ne_unpowered_of_engineTurn turn)) pending)
  | powerLost s' loses => exact ⟨losePower_storeInv s', fun ht => absurd (losePower_line s') ht⟩

/-! ## The registers' fields -/

/-- STATUS bit by bit, from bit 0 up (10_state.md R25). -/
theorem statusWord_bit (s : State) (k : Nat) : (statusWord s).getLsbD k =
    if k < 1 then (busyBit s).getLsbD k
    else if k < 2 then (faultBit s).getLsbD (k - 1)
    else if k < 4 then false
    else if k < 7 then s.phase.code.getLsbD (k - 4)
    else if k < 8 then false
    else if k < 16 then s.errcode.code.getLsbD (k - 8)
    else false := by
  simp only [statusWord, BitVec.getLsbD_append, BitVec.getLsbD_zero, Nat.sub_sub]
  grind

theorem statusWord_busy (s : State) : (statusWord s).getLsbD 0 = s.pend.isSome := by
  rw [statusWord_bit]
  simp [busyBit]

theorem statusWord_fault (s : State) : (statusWord s).getLsbD 1 = decide (s.phase = .fault) := by
  rw [statusWord_bit]
  simp [faultBit]

theorem statusWord_phase (s : State) : (statusWord s).extractLsb' 4 3 = s.phase.code := by
  ext k hk
  simp only [BitVec.getElem_extractLsb', statusWord_bit]
  grind

theorem statusWord_errcode (s : State) : (statusWord s).extractLsb' 8 8 = s.errcode.code := by
  ext k hk
  simp only [BitVec.getElem_extractLsb', statusWord_bit]
  grind

/-- The reserved bits 3:2, 7 and 31:16 of STATUS. -/
theorem statusWord_reserved (s : State) :
    (statusWord s).extractLsb' 2 2 = 0 ∧ (statusWord s).getLsbD 7 = false ∧ (statusWord s).extractLsb' 16 16 = 0 := by
  refine ⟨?_, ?_, ?_⟩
  · ext k hk
    simp only [BitVec.getElem_extractLsb', statusWord_bit]
    grind
  · rw [statusWord_bit]
    simp
  · ext k hk
    simp only [BitVec.getElem_extractLsb', statusWord_bit]
    grind

theorem ErrCode.code_eq_zero_iff (e : ErrCode) : e.code = 0 ↔ e = .none := by
  cases e <;> decide

/-- STATUS shows PHASE, ERRCODE and whether a command is pending, and nothing else. -/
theorem statusWord_congr {s t : State} (phase : s.phase = t.phase) (errcode : s.errcode = t.errcode)
    (pend : s.pend = none ↔ t.pend = none) : statusWord s = statusWord t := by
  have busy : s.pend.isSome = t.pend.isSome := by
    rw [Bool.eq_iff_iff, Option.isSome_iff_ne_none, Option.isSome_iff_ne_none]
    exact not_congr pend
  simp only [statusWord, busyBit, faultBit, phase, errcode, busy]

/-- CFG0 bit by bit, from bit 0 up (10_state.md R22). -/
theorem cfg0Word_bit (c : Params) (k : Nat) : (cfg0Word c).getLsbD k =
    if k < 16 then (BitVec.ofNat 16 c.seedWidth).getLsbD k
    else if k < 24 then (BitVec.ofNat 8 c.digestLen).getLsbD (k - 16)
    else if k < 25 then decide (c.seedOrder = .be)
    else false := by
  simp only [cfg0Word, BitVec.getLsbD_append, BitVec.getLsbD_zero, Nat.sub_sub, BitVec.getLsbD_ofBool]
  grind

theorem cfg0Word_seedWidth (c : Params) : (cfg0Word c).extractLsb' 0 16 = BitVec.ofNat 16 c.seedWidth := by
  ext k hk
  simp only [BitVec.getElem_extractLsb', cfg0Word_bit]
  grind

theorem cfg0Word_digestLen (c : Params) : (cfg0Word c).extractLsb' 16 8 = BitVec.ofNat 8 c.digestLen := by
  ext k hk
  simp only [BitVec.getElem_extractLsb', cfg0Word_bit]
  grind

theorem cfg0Word_bigEndian (c : Params) : (cfg0Word c).getLsbD 24 = true ↔ c.seedOrder = .be := by
  rw [cfg0Word_bit]
  simp

theorem cfg0Word_reserved (c : Params) : (cfg0Word c).extractLsb' 25 7 = 0 := by
  ext k hk
  simp only [BitVec.getElem_extractLsb', cfg0Word_bit]
  grind

end Sys2Proof.Machine

namespace Sys2Proof.Proofs

open Sys2Proof.Machine

/-! ## The statements about the block's state and its registers -/

/-- Settles O3: a step does one of six things to the block, and each keeps the invariant. -/
theorem stepKeepsTheBlockInvariant : Obligations.StepKeepsTheBlockInvariant :=
  fun _ _ inv h => (blockStep_of_step h).machineInv inv

/-- Settles O5: an unpowered block is left by a reset alone, and a round multiplies by an odd word. -/
theorem accumulatorIsOddAndNeverZero : Obligations.AccumulatorIsOddAndNeverZero := by
  refine ⟨by decide, fun s t odd h ht => ?_, ?_⟩
  · cases blockStep_of_step h with
    | unchanged same dark => exact acc_eq_of_sameBlock same ▸ odd (ht ∘ dark)
    | reset values =>
      obtain ⟨-, -, -, -, -, -, hacc, -⟩ := values
      simp [hacc]
    | raised e live same code => exact acc_eq_of_sameBlock same ▸ odd (ne_unpowered_of_running live)
    | accepted p live same grounds => exact acc_eq_of_sameBlock same ▸ odd (ne_unpowered_of_running live)
    | completed p turn pending done => exact done.acc_odd (odd (ne_unpowered_of_engineTurn turn))
    | powerLost s' loses => exact absurd (losePower_line s') ht
  · intro s odd hzero
    simp [hzero] at odd

/-- Settles O15: outside the completions nothing is written, and each command's completion writes its own pieces. -/
theorem whichCompletionWritesWhichState : Obligations.WhichCompletionWritesWhichState := by
  intro s t h
  rcases (blockStep_of_step h).data_cases with values | lost | ⟨hkey, hsb, hgen, hacc, hdout⟩ | ⟨turn, p, pending, done⟩
  · exact .inl values
  · exact .inr (.inl lost)
  · exact .inr (.inr ⟨absurd hkey, absurd hsb, absurd hgen, absurd hacc, absurd hdout⟩)
  · refine .inr (.inr ?_)
    cases done with
    | keyPush b => exact ⟨fun _ => ⟨turn, b, pending, rfl⟩, absurd rfl, absurd rfl, absurd rfl, absurd rfl⟩
    | expand r run => exact ⟨absurd rfl, fun _ => ⟨turn, pending⟩, absurd rfl, absurd rfl, absurd rfl⟩
    | seed => exact ⟨absurd rfl, absurd rfl, fun _ => ⟨turn, .inl pending⟩, absurd rfl, absurd rfl⟩
    | prime g seeded =>
      exact ⟨absurd rfl, absurd rfl, fun _ => ⟨turn, .inr (.inl pending)⟩, fun _ => ⟨turn, .inl pending⟩, absurd rfl⟩
    | xform b g seeded =>
      exact ⟨absurd rfl, absurd rfl, fun _ => ⟨turn, .inr (.inr ⟨b, pending⟩)⟩, fun _ => ⟨turn, .inr ⟨b, pending⟩⟩,
        fun _ => ⟨turn, b, pending⟩⟩

/-- Settles O16: PHASE is written by a fault entry, which is last in the order, and by a completion, which follows the
table. -/
theorem phaseNeverMovesBackward : Obligations.PhaseNeverMovesBackward := by
  intro s t inv h
  cases blockStep_of_step h with
  | unchanged same dark => exact .inr (.inr (Nat.le_of_eq (congrArg Phase.rank same.1.symm)))
  | reset values => exact .inl values
  | raised e live same code => exact .inr (.inr s.phase.rank_le_fault)
  | accepted p live same grounds => exact .inr (.inr (Nat.le_of_eq (congrArg Phase.rank same.1.symm)))
  | completed p turn pending done =>
    have legal := inv.tableLegal pending
    exact .inr (.inr (done.phase_eq legal ▸ rank_le_rank_tableAfter legal))
  | powerLost s' loses => exact .inr (.inl ⟨loses, rfl⟩)

/-- Settles O18: the order of the issue checks, then the completion row by row; SRST resets PHASE. -/
theorem commandsFollowThePhaseTable : Obligations.CommandsFollowThePhaseTable := by
  refine ⟨fun p s notFault idle => ?_, fun c p s t legal h => ?_, fun s => ⟨_, rfl, resetBlock_phase s⟩⟩
  · rw [exec_command, Host.Outcome.next.injEq]
    exact issueCommand_eq_order_iff p notFault idle
  · have done := complete_eq_next_iff.1 h
    exact ⟨done.phase_eq legal, done.pend_eq_none⟩

/-- Settles O43: the fields of STATUS one by one, then `BlockInv`'s word on FAULT. -/
theorem statusShowsBusyFaultAndState : Obligations.StatusShowsBusyFaultAndState := by
  refine ⟨fun s => ?_, fun s inv => ?_⟩ <;> simp only [readReg_status]
  · obtain ⟨low, seven, high⟩ := statusWord_reserved s
    refine ⟨?_, ?_, low, ?_, seven, high⟩
    · rw [statusWord_busy, Option.isSome_iff_ne_none]
    · rw [statusWord_fault, decide_eq_true_iff]
    · rw [statusWord_phase]
      cases s.phase <;> rfl
  · rw [statusWord_fault, statusWord_busy, statusWord_errcode, ErrCode.code_eq_zero_iff, decide_eq_true_iff]
    exact ⟨fun hf => by simp [inv.faultIdle hf], inv.errcodeFault⟩

/-- Settles O1: STATUS is a function of fields that a reset block shares with `State.reset`. -/
theorem resetValuesOfTheBlock : Obligations.ResetValuesOfTheBlock := by
  refine ⟨blockReset_reset, rfl, ?_⟩
  rintro s ⟨hph, herr, hpend, hkey, -, -, -, hdout⟩
  refine ⟨?_, hdout, by simp [hkey]⟩
  calc readReg .status s = statusWord State.reset := statusWord_congr hph herr (by simp [hpend, State.reset])
    _ = 0x00000000 := by decide

/-- Settles O2: the block invariant from the reset values; the keystream invariant asks nothing in IDLE. -/
theorem resetMeetsTheInvariants : Obligations.ResetMeetsTheInvariants := by
  have inv : BlockInv Config.params State.reset := blockInv_of_blockReset _ blockReset_reset
  refine ⟨machineInv_of_blockInv inv, inv, ?_⟩
  constructor <;> simp [State.reset, Phase.filled]

/-- Settles O21, code by code. -/
theorem errorCodesAreThoseOfTheTable : Obligations.ErrorCodesAreThoseOfTheTable := by
  intro s
  rw [readReg_status, statusWord_errcode]
  cases s.errcode <;> rfl

/-- Settles O42: each field is as wide as the range of its parameter (00_scope.md R7 to R9). -/
theorem constantRegistersShowTheParameters : Obligations.ConstantRegistersShowTheParameters := by
  intro c s
  obtain ⟨-, -, hW, -, hD, -, hN, -⟩ := c.ranges
  refine ⟨rfl, ?_, ?_, cfg0Word_bigEndian c, cfg0Word_reserved c, ?_, rfl⟩ <;> simp only [readRegWith]
  · rw [cfg0Word_seedWidth, BitVec.toNat_ofNat, Nat.mod_eq_of_lt (by omega)]
  · rw [cfg0Word_digestLen, BitVec.toNat_ofNat, Nat.mod_eq_of_lt (by omega)]
  · rw [BitVec.toNat_ofNat, Nat.mod_eq_of_lt (by omega)]

/-- Settles O44: |KEY| is at most KEY_MAX, which fits 32 bits (00_scope.md R10). -/
theorem keylenIsTheLengthOfTheKey : Obligations.KeylenIsTheLengthOfTheKey := by
  intro s inv
  obtain ⟨-, -, -, -, -, -, -, -, hmax⟩ := Config.params.ranges
  have bounded := inv.keyBounded
  rw [readReg_keylen, BitVec.toNat_ofNat, Nat.mod_eq_of_lt (by omega)]

/-- Settles O45, register by register. -/
theorem noRegisterShowsTheSecrets : Obligations.NoRegisterShowsTheSecrets := by
  intro s t phase errcode pend keylen dout r
  cases r with
  | status => exact statusWord_congr phase errcode pend
  | dout => exact dout
  | keylen => rw [readReg_keylen, readReg_keylen, keylen]
  | _ => rfl

/-- Settles O51, register by register and index by index. -/
theorem registerIndexSelectsEachRegister : Obligations.RegisterIndexSelectsEachRegister := by
  refine ⟨fun r => ?_, by decide, rfl⟩
  cases r <;> rfl

end Sys2Proof.Proofs

/-! SUPPORT. The statements about the port, the bus and the seed buffer (20_memory.md), and the facts they rest on: where
a bus address leads, what the next access does, and the bytes of a seed word. -/

namespace Sys2Proof.Machine

/-! ## The seed buffer's primitives (20_memory.md R50) -/

theorem memRead_eq_none_iff (c : Params) (m : Memory) (a n : Nat) : memRead c m a n = none ↔ c.seedWidth < a + n := by
  simp [memRead]

theorem memWrite_eq_none_iff (c : Params) (m : Memory) (a : Nat) (v : List Byte) :
    memWrite c m a v = none ↔ c.seedWidth < a + v.length := by
  simp [memWrite]

/-- A MemRead depends on the bytes it reads alone. -/
theorem memRead_congr (c : Params) {m m' : Memory} {a n : Nat} (h : ∀ i, a ≤ i → i < a + n → m.read i = m'.read i) :
    memRead c m a n = memRead c m' a n := by
  rw [memRead, memRead, Memory.readBytes_congr h]

/-! ## The bytes of a seed word (20_memory.md R49) -/

/-- Byte k of four joined bytes, counted from the least significant. -/
theorem extractLsb'_fourBytes (f : Nat → Byte) {k : Nat} (hk : k < 4) :
    (f 3 ++ f 2 ++ f 1 ++ f 0 : BitVec (8 + 8 + 8 + 8)).extractLsb' (8 * k) 8 = f k := by
  ext j hj
  simp only [BitVec.getElem_extractLsb', BitVec.getLsbD_append]
  obtain rfl | rfl | rfl | rfl : k = 0 ∨ k = 1 ∨ k = 2 ∨ k = 3 := by omega
  all_goals grind

theorem seedWord_byte_le {c : Params} (order : c.seedOrder = .le) (m : Memory) (i : Nat) {k : Nat} (hk : k < 4) :
    (seedWord c m i).extractLsb' (8 * k) 8 = m.read (4 * i + k) := by
  simpa only [seedWord, order, Nat.add_zero] using extractLsb'_fourBytes (fun j => m.read (4 * i + j)) hk

/-- Under BE the bytes of a word stand the other way round in SB. -/
theorem seedWord_byte_be {c : Params} (order : c.seedOrder = .be) (m : Memory) (i : Nat) {k : Nat} (hk : k < 4) :
    (seedWord c m i).extractLsb' (8 * k) 8 = m.read (4 * i + (3 - k)) := by
  simpa only [seedWord, order, Nat.sub_self, Nat.reduceSub, Nat.sub_zero, Nat.add_zero] using
    extractLsb'_fourBytes (fun j => m.read (4 * i + (3 - j))) hk

/-- NW = W / 4 (00_scope.md R7). -/
theorem seedWidth_div_four (c : Params) : c.seedWidth / 4 = c.seedWords :=
  Nat.mul_div_cancel_left _ (by decide)

theorem seedWords_getElem? (c : Params) (m : Memory) {i : Nat} (hi : i < c.seedWords) :
    (seedWords c m)[i]? = some (seedWord c m i) := by
  simp [seedWords, hi]

/-! ## The bus bridge (20_memory.md R46) -/

/-- Inside the window the offset and the width alone decide. -/
theorem busTarget_window (c : Params) {off : Nat} (bytes : Nat) (inside : off < 32) :
    busTarget c (c.ksgBase + off) bytes =
      if bytes = 4 ∧ off % 4 = 0 then .reg (HostReg.ofIndex (BitVec.ofNat 3 (off / 4))) else .subword := by
  rw [busTarget, if_neg (by omega), Nat.add_sub_cancel_left]

theorem busTarget_register (c : Params) (i : BitVec 3) :
    busTarget c (c.ksgBase + 4 * i.toNat) 4 = .reg (HostReg.ofIndex i) := by
  have hi := i.isLt
  rw [busTarget_window c 4 (by omega), if_pos (by omega), Nat.mul_div_cancel_left _ (by decide), BitVec.ofNat_toNat,
    BitVec.setWidth_eq]

theorem busTarget_subword (c : Params) {off bytes : Nat} (inside : off < 32) (notWord : bytes ≠ 4 ∨ off % 4 ≠ 0) :
    busTarget c (c.ksgBase + off) bytes = .subword := by
  rw [busTarget_window c bytes inside, if_neg (by omega)]

theorem busTarget_unmapped (c : Params) {addr : Nat} (bytes : Nat)
    (outside : addr < c.ksgBase ∨ c.ksgBase + 32 ≤ addr) : busTarget c addr bytes = .unmapped :=
  if_pos outside

/-! ## The next access of a running block (20_memory.md R47, R53) -/

theorem atPort_running {s : State} (live : s.line = .running) (served : Host.Outcome State Fault Refusal) :
    atPort s served = served := by
  rw [atPort, live]

/-- In the host's turn a running block serves the next access, at the state with the input taken and the access counted.
Each kind of access meets `access` by `rfl`. -/
theorem step_access {s : State} {e : HostInput} {rest : List HostInput}
    {served : State → Host.Outcome State Fault Refusal} (live : s.line = .running) (turn : engineTurn s = false)
    (next : s.input = e :: rest) (access : ∀ u, takeInput e u = atPort u (served u)) :
    step s = served { s with input := rest, busyLeft := s.busyLeft - 1 } := by
  rw [step_host turn, hostTurn_cons next, access, atPort_running]
  exact live

theorem portWrite_of_ne_cmd {r : HostReg} (other : r ≠ .cmd) (w : Word) (s : State) : portWrite r w s = .next s := by
  cases r with
  | cmd => exact absurd rfl other
  | _ => rfl

theorem issueWord_of_decode {w : Word} {i : Instr} (h : decode w = .command i) (s : State) :
    issueWord w s = exec i s := by
  rw [issueWord, h]

/-! ## A command word placed as the next access (30_encoding.md R62, R66) -/

theorem decode_encode (i : Instr) : decode (encode i) = .command i := by
  rw [decode, encode, Laws.ofWord_toWord]
  cases i <;> rfl

theorem withFetchWord_eq_presentWord (s : State) (w : Word) : s.withFetchWord 32 w.toNat = presentWord w s := by
  rw [State.withFetchWord, Nat.mod_eq_of_lt w.isLt, BitVec.ofNat_toNat, BitVec.setWidth_eq]

/-- A placed word is one more access to come, so the engine waits. -/
theorem engineTurn_presentWord (w : Word) (s : State) : engineTurn (presentWord w s) = false := by
  simp [engineTurn]

/-! ## The engine's turn (42_control.md R106) -/

theorem exists_completion_of_engineTurn {s t : State} (turn : engineTurn s = true) (h : step s = .next t) :
    ∃ p, s.pend = some p ∧ Completion Config.params s p t := by
  obtain ⟨-, ⟨p, pending⟩, -⟩ := (engineTurn_iff s).1 turn
  rw [step_engine turn, engineStep, engineStepWith, pending] at h
  exact ⟨p, pending, complete_eq_next_iff.1 h⟩

theorem engineTurn_eq_false_of_pend {s : State} (idle : s.pend = none) : engineTurn s = false := by
  simp [engineTurn, idle]

theorem Completion.input_eq {c : Params} {s t : State} {p : Pending} (h : Completion c s p t) : t.input = s.input := by
  cases h <;> rfl

theorem Completion.observed_eq {c : Params} {s t : State} {p : Pending} (h : Completion c s p t) :
    t.observed = s.observed := by
  cases h <;> rfl

/-! ## What a pending command shows (20_memory.md R54) -/

/-- From nothing pending, only an acceptance leaves a command pending. -/
theorem eq_accept_of_pend {p q : Pending} {s t : State} (idle : s.pend = none) (h : exec p.command s = .next t)
    (pending : t.pend = some q) : t = accept Config.params p s := by
  rcases exec_command_cases p s with ⟨-, e⟩ | ⟨x, -, -, e⟩ | ⟨-, e⟩ <;> cases h.symm.trans e
  · simp [idle] at pending
  · simp at pending
  · rfl

/-- An acceptance sets STATUS.BUSY, bit 0, and no other bit. -/
theorem statusWord_accept (c : Params) (p : Pending) (s : State) :
    statusWord (accept c p s) = statusWord s ||| 0x00000001 := by
  have others : ∀ k, k ≠ 0 → (statusWord (accept c p s)).getLsbD k = (statusWord s).getLsbD k := by
    intro k hk
    simp only [statusWord_bit, Nat.lt_one_iff, hk, if_false]
    rfl
  ext k hk
  rw [← BitVec.getLsbD_eq_getElem, ← BitVec.getLsbD_eq_getElem, BitVec.getLsbD_or]
  cases k with
  | zero => simp [statusWord_busy]
  | succ k => simp [others]

end Sys2Proof.Machine

namespace Sys2Proof.Proofs

open Sys2Proof.Machine

/-! ## The statements about the port, the bus and the seed buffer -/

/-- Settles O12: the engine's turn asks for a pending command, and a completion leaves none. -/
theorem atMostOneCompletionBetweenAccesses : Obligations.AtMostOneCompletionBetweenAccesses := by
  refine ⟨fun s turn => ?_, fun s t turn h => ?_⟩
  · obtain ⟨-, ⟨p, pending⟩, -⟩ := (engineTurn_iff s).1 turn
    simp [pending]
  · obtain ⟨p, -, done⟩ := exists_completion_of_engineTurn turn h
    exact ⟨engineTurn_eq_false_of_pend done.pend_eq_none, done.input_eq, done.observed_eq⟩

/-- Settles O14, by the five things a step can do, of which the completion is the engine's. -/
theorem onlyCmdWritesAndResetChangeTheBlock : Obligations.OnlyCmdWritesAndResetChangeTheBlock := by
  intro s t turn h
  rcases step_cases h with ⟨engine, -⟩ | ⟨-, same⟩ | ⟨-, e, rest, w, _, next, cmd, -⟩ | ⟨-, rest, next, rfl⟩ |
      ⟨-, rest, next, rfl⟩
  · simp [turn] at engine
  · exact .inl same
  · exact .inr (.inl ⟨e, rest, w, next, cmd⟩)
  · exact .inr (.inr (.inl ⟨rest, next, blockReset_assertReset _⟩))
  · exact .inr (.inr (.inr ⟨⟨turn, rest, next⟩, losePower_line _⟩))

/-- Settles O29: an acceptance writes none of the fields that the registers other than STATUS show. -/
theorem pendingCommandShowsOnlyBusy : Obligations.PendingCommandShowsOnlyBusy := by
  intro p s t idle h pending
  obtain rfl := eq_accept_of_pend idle h pending
  refine ⟨fun r other => ?_, statusWord_accept _ p s⟩
  cases r with
  | status => exact absurd rfl other
  | _ => rfl

/-- Settles O34, from the laws of a sequence written and read back. -/
theorem seedBufferPrimitivesReadBackWhatWasWritten : Obligations.SeedBufferPrimitivesReadBackWhatWasWritten := by
  refine ⟨fun c m a v canonical inside => ⟨m.writeBytes a v, ?_, ?_, fun b n _ apart => ?_⟩,
    fun c m a v => (memWrite_eq_none_iff c m a v).2, fun c m a n => (memRead_eq_none_iff c m a n).2⟩
  · exact (memWrite_eq_some c m _ a v).2 ⟨inside, rfl⟩
  · exact (memRead_eq_some c _ a v.length v).2 ⟨inside, Memory.readBytes_writeBytes canonical a v⟩
  · exact memRead_congr c fun i _ _ => Memory.read_writeBytes_outside m a v i (by omega)

/-- Settles O35, byte by byte in each order. -/
theorem seedWordsFollowTheSeedOrder : Obligations.SeedWordsFollowTheSeedOrder := by
  intro c m
  rw [seedWidth_div_four]
  exact ⟨seedWords_length c m, fun i hi => ⟨seedWord c m i, seedWords_getElem? c m hi,
    fun le _ hk => seedWord_byte_le le m i hk, fun be _ hk => seedWord_byte_be be m i hk⟩⟩

/-- Settles O50: the bridge's target decides a bus access, and a running block's step serves it. -/
theorem busAccessesReachTheirRegister : Obligations.BusAccessesReachTheirRegister := by
  refine ⟨fun c i w s => ?_, fun c off bytes w s inside notWord safe => ?_,
    fun c off bytes w s inside notWord other => ?_, fun c addr bytes w s outside => ?_,
    fun s addr bytes rest live turn next => ?_, fun s addr bytes w rest live turn next => ?_⟩
  · simp only [busReadWith, busWriteWith, busTarget_register, and_self]
  · simp only [busReadWith, busWriteWith, busTarget_subword c inside notWord, subwordAccess, safe, and_self]
  · simp only [busReadWith, busWriteWith, busTarget_subword c inside notWord, subwordAccess, other, and_self]
  · simp only [busReadWith, busWriteWith, busTarget_unmapped c bytes outside, and_self]
  · exact step_access live turn next fun _ => rfl
  · exact step_access live turn next fun _ => rfl

/-- Settles O10: a write to CMD is an access like any other, and its word is issued as the command it decodes to. -/
theorem stepRunsTheDecodedCommand : Obligations.StepRunsTheDecodedCommand := by
  refine ⟨fun s w i rest live turn next command => ?_, fun s w rest live turn next => ?_, fun s => step_engine⟩
  · exact (step_access live turn next fun _ => rfl).trans (issueWord_of_decode command _)
  · exact step_access live turn next fun _ => rfl

/-- Settles O11: the placed word is the next access, and it decodes to its command. -/
theorem placedWordRunsInTheNextStep : Obligations.PlacedWordRunsInTheNextStep := by
  intro s i
  obtain ⟨command, -, -⟩ := stepRunsTheDecodedCommand
  rw [withFetchWord_eq_presentWord]
  exact command (presentWord (encode i) s) (encode i) i s.input rfl (engineTurn_presentWord _ s) rfl (decode_encode i)

/-- Settles O13: what is read does not depend on the list of inputs or the count of accesses. -/
theorem readsAndOtherWritesHaveNoEffect : Obligations.ReadsAndOtherWritesHaveNoEffect := by
  refine ⟨fun s r rest live turn next => ?_, fun s r w rest live turn other next => ?_, fun s => ⟨rfl, rfl⟩⟩
  · have sameRead := noRegisterShowsTheSecrets
      { s with input := rest, busyLeft := s.busyLeft - 1 } s rfl rfl Iff.rfl rfl rfl r
    rw [← sameRead]
    exact step_access live turn next fun _ => rfl
  · exact (step_access live turn next fun _ => rfl).trans (portWrite_of_ne_cmd other w _)

end Sys2Proof.Proofs

/-! SUPPORT. The statements about command words and host programs (30_encoding.md), and the facts they rest on: the
words that decode to a command, what a statement assembles to, that a completion never stops, and how the polling loop
runs. -/

namespace Sys2Proof.Machine

/-! ## The words that are commands (30_encoding.md R63 to R66) -/

/-- The fields the opcode map gives a command (R63). -/
def mapFields (i : Instr) : Fields := ⟨i.opcode, 0, i.data⟩

theorem encode_eq_toWord (i : Instr) : encode i = (mapFields i).toWord := rfl

/-- The tests of R66 pass a word on to a command only with that command's row in its fields. -/
theorem ofWord_of_decode {w : Word} {i : Instr} (h : decode w = .command i) : Fields.ofWord w = mapFields i := by
  generalize hf : Fields.ofWord w = f
  obtain ⟨opcode, rsv, data⟩ := f
  simp only [decode, hf, ne_eq, ite_not] at h
  split_ifs at h with zeroRsv isKeyPush isXform zeroData isExpand isSeed isPrime isSrst <;> cases h
  · rw [zeroRsv, isKeyPush]; rfl
  · rw [zeroRsv, isXform]; rfl
  · rw [zeroRsv, zeroData, isExpand]; rfl
  · rw [zeroRsv, zeroData, isSeed]; rfl
  · rw [zeroRsv, zeroData, isPrime]; rfl
  · rw [zeroRsv, zeroData, isSrst]; rfl

theorem decode_eq_command_iff (w : Word) (i : Instr) : decode w = .command i ↔ w = encode i := by
  constructor
  · intro h
    rw [encode_eq_toWord, ← ofWord_of_decode h, Laws.toWord_ofWord]
  · rintro rfl
    exact decode_encode i

theorem mapFields_wellFormed (i : Instr) : (mapFields i).wellFormed = true := by
  cases i <;> rfl

/-- Fields that pass the checks of R63 to R65 are a row of the map. -/
theorem exists_mapFields_of_wellFormed {f : Fields} (h : f.wellFormed = true) : ∃ i, f = mapFields i := by
  obtain ⟨opcode, rsv, data⟩ := f
  simp only [Fields.wellFormed, Fields.opcodeAssigned, Fields.takesData, Bool.and_eq_true, Bool.or_eq_true,
    decide_eq_true_eq, List.mem_cons, List.not_mem_nil, or_false] at h
  obtain ⟨⟨assigned, rfl⟩, operand⟩ := h
  rcases operand with takesData | rfl
  · rcases takesData with rfl | rfl
    · exact ⟨.keyPush data, rfl⟩
    · exact ⟨.xform data, rfl⟩
  · rcases assigned with rfl | rfl | rfl | rfl | rfl | rfl
    · exact ⟨.keyPush 0, rfl⟩
    · exact ⟨.expand, rfl⟩
    · exact ⟨.seed, rfl⟩
    · exact ⟨.prime, rfl⟩
    · exact ⟨.xform 0, rfl⟩
    · exact ⟨.srst, rfl⟩

theorem encode_injective : Function.Injective encode := by
  intro i j h
  have hd := decode_encode i
  rw [h, decode_encode] at hd
  exact (Decoded.command.inj hd).symm

/-- The commands row by row: two with a byte for an operand and four without (R63). -/
def instrRows : Instr ≃ (Byte ⊕ Byte) ⊕ Fin 4 where
  toFun
    | .keyPush b => .inl (.inl b)
    | .xform b => .inl (.inr b)
    | .expand => .inr 0
    | .seed => .inr 1
    | .prime => .inr 2
    | .srst => .inr 3
  invFun
    | .inl (.inl b) => .keyPush b
    | .inl (.inr b) => .xform b
    | .inr 0 => .expand
    | .inr 1 => .seed
    | .inr 2 => .prime
    | .inr 3 => .srst
  left_inv i := by cases i <;> rfl
  right_inv
    | .inl (.inl _) => rfl
    | .inl (.inr _) => rfl
    | .inr 0 => rfl
    | .inr 1 => rfl
    | .inr 2 => rfl
    | .inr 3 => rfl

theorem card_instr : Nat.card Instr = 2 * 256 + 4 := by
  have bytes : Nat.card Byte = 256 := by
    rw [Nat.card_congr BitVec.equivFin.toEquiv, Nat.card_fin]
    rfl
  rw [Nat.card_congr instrRows, Nat.card_sum, Nat.card_sum, bytes, Nat.card_fin]

/-! ## What a statement assembles to (30_encoding.md R70 to R78) -/

/-- The fields of a word are disjoint, so joining them is an OR. -/
theorem encode_eq_or (i : Instr) : encode i = i.opcode.setWidth 32 <<< 24 ||| i.data.setWidth 32 := by
  ext k hk
  simp only [encode, Fields.toWord, BitVec.getElem_or, BitVec.getElem_shiftLeft, BitVec.getElem_setWidth]
  grind

theorem encode_keyPush (b : Byte) : encode (.keyPush b) = 0x01000000#32 ||| b.setWidth 32 := by
  simp [encode_eq_or, Instr.opcode, Instr.data]

theorem encode_xform (b : Byte) : encode (.xform b) = 0x05000000#32 ||| b.setWidth 32 := by
  simp [encode_eq_or, Instr.opcode, Instr.data]

theorem assemble_cons {st : Stmt} (inRange : st.wellFormed = true) (rest : List Stmt) :
    assemble (st :: rest) = (assemble rest).map (Stmt.inputs st ++ ·) := if_pos inRange

theorem assemble_singleton {st : Stmt} (inRange : st.wellFormed = true) : assemble [st] = some (Stmt.inputs st) := by
  simp [assemble, inRange]

/-- One literal out of range, and the program does not assemble (R72). -/
theorem assemble_cons_eq_none {st : Stmt} (outOfRange : st.wellFormed = false) (rest : List Stmt) :
    assemble (st :: rest) = none := by
  simp [assemble, outOfRange]

theorem byteLiteralOk_iff (n : Nat) : byteLiteralOk n = true ↔ n < 256 := by
  simp [byteLiteralOk]

theorem all_asciiOk_iff (codes : List Nat) : codes.all asciiOk = true ↔ ∀ x ∈ codes, x < 128 := by
  simp [asciiOk]

/-- An ASCII code is in the range of a byte literal. -/
theorem ascii_cons {ch : Nat} {codes : List Nat} (ascii : ∀ x ∈ ch :: codes, x < 128) :
    byteLiteralOk ch = true ∧ codes.all asciiOk = true := by
  obtain ⟨hch, hcodes⟩ := List.forall_mem_cons.1 ascii
  exact ⟨(byteLiteralOk_iff ch).2 (by omega), (all_asciiOk_iff codes).2 hcodes⟩

/-! ## A completion never stops (40_key_schedule.md R87, 41_cipher_engine.md R103) -/

/-- The loop stays inside SB and takes at least one byte off `rem` in each turn, so it ends inside its bound (R87). -/
theorem exists_ksLoop {c : Params} {fuel off rem : Nat} (r : KsRun) (inside : off + rem ≤ c.seedWidth)
    (bound : rem ≤ fuel) : ∃ r', ksLoop c fuel off rem r = some r' := by
  induction fuel generalizing off rem r with
  | zero =>
    obtain rfl : rem = 0 := by omega
    exact ⟨r, rfl⟩
  | succ fuel ih =>
    by_cases ended : rem = 0
    · exact ⟨r, by rw [ksLoop, if_pos ended]⟩
    · have positive := c.digestLen_pos
      have read : memRead c r.sb 0 off = some (r.sb.readBytes 0 off) :=
        (memRead_eq_some ..).2 ⟨by omega, rfl⟩
      have write := (memWrite_eq_some c r.sb _ off
        ((digest c (r.sb.readBytes 0 off)).take (min c.digestLen rem))).2 ⟨by simp; omega, rfl⟩
      simp only [ksLoop, if_neg ended, read, write]
      exact ih _ (by omega) (by omega)

theorem exists_ks (c : Params) (key : List Byte) (m : Memory) : ∃ r, ks c key m = some r := by
  have write := (memWrite_eq_some c m _ 0 ((digest c key).take (min c.digestLen c.seedWidth))).2 ⟨by simp, rfl⟩
  simp only [ks, write]
  exact exists_ksLoop _ (by omega) (by omega)

theorem BlockInv.exists_completion {c : Params} {s : State} (inv : BlockInv c s) {p : Pending}
    (pending : s.pend = some p) : ∃ t, Completion c s p t := by
  have legal := inv.tableLegal pending
  cases p with
  | keyPush b => exact ⟨_, .keyPush b⟩
  | expand =>
    obtain ⟨r, run⟩ := exists_ks c s.key s.sb
    exact ⟨_, .expand r run⟩
  | seed => exact ⟨_, .seed⟩
  | prime =>
    obtain ⟨g, seeded⟩ := Option.isSome_iff_exists.1 (inv.genSeeded (by rw [show s.phase = .seeded from legal]; rfl))
    exact ⟨_, .prime g seeded⟩
  | xform b =>
    have generating : s.phase.generating = true := by rcases legal with h | h <;> rw [h] <;> rfl
    obtain ⟨g, seeded⟩ := Option.isSome_iff_exists.1 (inv.genSeeded generating)
    exact ⟨_, .xform b g seeded⟩

theorem Completion.line_eq {c : Params} {s t : State} {p : Pending} (h : Completion c s p t) : t.line = s.line := by
  cases h <;> rfl

/-- A completion neither reads the count of accesses and the observation nor writes the latter. -/
theorem Completion.with_busyLeft_observed {c : Params} {s t : State} {p : Pending} (h : Completion c s p t) (n : Nat)
    (o : List Observation) :
    Completion c { s with busyLeft := n, observed := o } p { t with observed := o } := by
  cases h with
  | keyPush b => exact .keyPush b
  | expand r run => exact .expand r run
  | seed => exact .seed
  | prime g seeded => exact .prime g seeded
  | xform b g seeded => exact .xform b g seeded

/-- In the engine's turn the step is the pending command's completion (42_control.md R106). -/
theorem step_completion {s t : State} {p : Pending} (turn : engineTurn s = true) (pending : s.pend = some p)
    (done : Completion Config.params s p t) : step s = .next t := by
  rw [step_engine turn, engineStep, engineStepWith, pending]
  exact complete_eq_next_iff.2 done

/-! ## Runs -/

theorem run_succ {s t : State} (h : step s = .next t) (n : Nat) : core.run (n + 1) s = core.run n t := by
  have first : core.step s = .next t := h
  simp only [Host.Core.run, first]

theorem run_add {m : Nat} {s t : State} (h : core.run m s = .next t) (n : Nat) :
    core.run (m + n) s = core.run n t := by
  induction m generalizing s with
  | zero =>
    cases h
    rw [Nat.zero_add]
  | succ m ih =>
    rw [Nat.succ_add]
    cases first : step s with
    | next u =>
      rw [run_succ first] at h ⊢
      exact ih h
    | fault r =>
      have stop : core.step s = .fault r := first
      simp [Host.Core.run, stop] at h
    | refused r =>
      have stop : core.step s = .refused r := first
      simp [Host.Core.run, stop] at h

/-! ## The polling loop WAIT (30_encoding.md R76) -/

/-- Reads of STATUS that all saw BUSY = 1. -/
def pollsBusy (reads : List Observation) : Prop :=
  ∀ o ∈ reads, ∃ v, o = .value .status v ∧ v.getLsbD 0 = true

theorem portWait_of_pend {s : State} {p : Pending} (pending : s.pend = some p) :
    portWait s = { portRead .status s with input := .wait :: s.input } := by
  rw [portWait, if_pos (by rw [readReg_status, statusWord_busy, pending]; rfl)]

theorem portWait_of_idle {s : State} (idle : s.pend = none) : portWait s = portRead .status s := by
  rw [portWait, if_neg (by rw [readReg_status, statusWord_busy, idle]; decide)]

/-- While a command is pending with an access to come before its completion, WAIT reads STATUS and stays. -/
theorem step_wait_busy {s : State} {p : Pending} {rest : List HostInput} {k : Nat} (live : s.line = .running)
    (pending : s.pend = some p) (next : s.input = .wait :: rest) (left : s.busyLeft = k + 1) :
    step s = .next { s with busyLeft := k, observed := s.observed ++ [.value .status (statusWord s)] } := by
  have turn : engineTurn s = false := by simp [engineTurn, left, next]
  have waits := step_access (served := fun u => .next (portWait u)) live turn next fun _ => rfl
  rw [waits, portWait_of_pend (s := { s with input := rest, busyLeft := s.busyLeft - 1 }) pending, left, next]
  rfl

/-- With nothing pending, WAIT reads STATUS once more and ends. -/
theorem step_wait_idle {s : State} {rest : List HostInput} (live : s.line = .running) (idle : s.pend = none)
    (next : s.input = .wait :: rest) :
    step s = .next { s with input := rest, busyLeft := s.busyLeft - 1,
                            observed := s.observed ++ [.value .status (statusWord s)] } := by
  have waits := step_access (served := fun u => .next (portWait u)) live (engineTurn_eq_false_of_pend idle) next
    fun _ => rfl
  rw [waits, portWait_of_idle (s := { s with input := rest, busyLeft := s.busyLeft - 1 }) idle]
  rfl

/-- WAIT uses up the accesses of the BUSY interval, and every one of its reads sees BUSY = 1. -/
theorem run_wait_busyLeft {s : State} {p : Pending} {rest : List HostInput} (live : s.line = .running)
    (pending : s.pend = some p) (next : s.input = .wait :: rest) :
    ∃ reads, pollsBusy reads ∧
      core.run s.busyLeft s = .next { s with busyLeft := 0, observed := s.observed ++ reads } := by
  generalize left : s.busyLeft = k
  induction k generalizing s with
  | zero =>
    refine ⟨[], by simp [pollsBusy], ?_⟩
    calc core.run 0 s = .next s := rfl
      _ = .next { s with busyLeft := 0, observed := s.observed ++ [] } := by rw [List.append_nil, ← left]
  | succ k ih =>
    obtain ⟨reads, busy, run⟩ :=
      ih (s := { s with busyLeft := k, observed := s.observed ++ [.value .status (statusWord s)] }) live pending next
        rfl
    refine ⟨.value .status (statusWord s) :: reads, ?_, ?_⟩
    · refine List.forall_mem_cons.2 ⟨⟨_, rfl, ?_⟩, busy⟩
      rw [statusWord_busy, pending]
      rfl
    · rw [run_succ (step_wait_busy live pending next left), run]
      simp

/-! ## A command at the port -/

/-- A command with its grounds, written to CMD as the next access, is accepted (42_control.md R105). -/
theorem exec_of_accepted {p : Pending} {s : State} (grounds : Accepted p s) :
    exec p.command s = .next (accept Config.params p s) := by
  have late := (lateCheck_eq_none p s).2 ⟨grounds.expandKey, grounds.keyPushRoom⟩
  simp [exec_command, issueCommand, late, grounds.notFault, grounds.notBusy, grounds.legal]

theorem Accepted.of_sameBlock {p : Pending} {s t : State} (grounds : Accepted p s) (same : sameBlock t s) :
    Accepted p t := by
  obtain ⟨hph, -, hpend, hkey, -, -, -, -⟩ := same
  exact ⟨hph ▸ grounds.legal, hpend ▸ grounds.notBusy, hph ▸ grounds.notFault, hkey ▸ grounds.expandKey,
    hkey ▸ grounds.keyPushRoom⟩

theorem accepted_xform_of_ready {s : State} (b : Byte) (h : ready s) : Accepted (.xform b) s where
  legal := (legalIn_iff (.xform b) s.phase).2 h.1
  notBusy := h.2
  notFault := by rcases h.1 with hp | hp <;> simp [hp]
  expandKey := nofun
  keyPushRoom := nofun

/-- The step that writes an accepted command to CMD. -/
theorem step_commandWrite {p : Pending} {s : State} {rest : List HostInput} (live : s.line = .running)
    (grounds : Accepted p s) (next : s.input = commandWrite p.command :: rest) :
    step s = .next (accept Config.params p { s with input := rest, busyLeft := s.busyLeft - 1 }) := by
  obtain ⟨command, -, -⟩ := Proofs.stepRunsTheDecodedCommand
  rw [command s _ p.command rest live (engineTurn_eq_false_of_pend grounds.notBusy) next (decode_encode _)]
  exact exec_of_accepted (grounds.of_sameBlock (sameBlock_refl s))

end Sys2Proof.Machine

namespace Sys2Proof.Proofs

open Sys2Proof.Machine

/-! ## The statements about command words and host programs -/

/-- Settles O6: a word is its fields, and the fields of a word that decodes to a command are the command's row. -/
theorem decodeAndEncodeAgree : Obligations.DecodeAndEncodeAgree :=
  ⟨decode_encode, fun w i => (decode_eq_command_iff w i).1⟩

/-- Settles O7: fields that pass the checks are those of a command's row. -/
theorem decodeAcceptsExactlyTheWellFormedWords : Obligations.DecodeAcceptsExactlyTheWellFormedWords := by
  refine fun w => ⟨fun ⟨i, h⟩ => ?_, fun h => ?_⟩
  · rw [ofWord_of_decode h]
    exact mapFields_wellFormed i
  · obtain ⟨i, hi⟩ := exists_mapFields_of_wellFormed h
    refine ⟨i, (decode_eq_command_iff w i).2 ?_⟩
    rw [encode_eq_toWord, ← hi, Laws.toWord_ofWord]

/-- Settles O8: the words that decode are the encodings, one for each command. -/
theorem exactlyFiveHundredSixteenWordsAreCommands : Obligations.ExactlyFiveHundredSixteenWordsAreCommands := by
  have encodings : {w : Word | ∃ i, decode w = .command i} = Set.range encode := by
    ext w
    simp only [Set.mem_ofPred_eq, Set.mem_range, decode_eq_command_iff, eq_comm]
  calc Set.ncard {w : Word | ∃ i, decode w = .command i} = Nat.card (Set.range encode) := by
        rw [encodings, Nat.card_coe_set_eq]
    _ = Nat.card Instr := Nat.card_range_of_injective encode_injective
    _ = 516 := card_instr

/-- Settles O9: the first six words are encodings of commands, and the others fail one test of R66 each. -/
theorem wordsOfTheOpcodeMapDecode : Obligations.WordsOfTheOpcodeMapDecode :=
  ⟨decode_encode (.keyPush 0xFF), decode_encode .expand, decode_encode .seed, decode_encode .prime,
    decode_encode (.xform 0x80), decode_encode .srst, rfl, rfl, rfl⟩

/-- Settles O52: a mnemonic writes its command's word, which is its OPCODE in the high byte ORed with the literal. -/
theorem mnemonicsAssembleToTheirWords : Obligations.MnemonicsAssembleToTheirWords := by
  refine ⟨fun b hb => ?_, fun b hb => ?_, rfl, rfl, rfl, rfl, fun b hb => ?_⟩
  · rw [assemble_singleton (st := .keyPush b) ((byteLiteralOk_iff b).2 hb), Stmt.inputs, commandWrite, encode_keyPush]
  · rw [assemble_singleton (st := .xform b) ((byteLiteralOk_iff b).2 hb), Stmt.inputs, commandWrite, encode_xform]
  · have outOfRange : byteLiteralOk b = false := by simp [byteLiteralOk, hb]
    exact ⟨assemble_cons_eq_none (st := .keyPush b) outOfRange [], assemble_cons_eq_none (st := .xform b) outOfRange []⟩

/-- Settles O53: an ASCII code is in the range of a byte literal, and the inputs of statements are joined in order. -/
theorem pseudoInstructionsExpand : Obligations.PseudoInstructionsExpand := by
  refine ⟨rfl, fun ch codes ascii => ?_, rfl, fun b hb => ?_, rfl, fun ch codes ascii => ?_⟩
  · obtain ⟨byte, codesOk⟩ := ascii_cons ascii
    rw [assemble_singleton (st := .key (ch :: codes)) ((all_asciiOk_iff _).2 ascii),
      assemble_cons (st := .keyPush ch) byte, assemble_cons (st := .wait) rfl,
      assemble_singleton (st := .key codes) codesOk]
    rfl
  · have byte := (byteLiteralOk_iff b).2 hb
    rw [assemble_singleton (st := .enc b) byte, assemble_singleton (st := .dec b) byte,
      assemble_cons (st := .xform b) byte]
    exact ⟨rfl, rfl⟩
  · obtain ⟨byte, codesOk⟩ := ascii_cons ascii
    rw [assemble_singleton (st := .xstr (ch :: codes)) ((all_asciiOk_iff _).2 ascii),
      assemble_cons (st := .enc ch) byte, assemble_singleton (st := .xstr codes) codesOk]
    rfl

/-- Settles O46: the polls of the BUSY interval, the completion where a command is pending, and the last read. -/
theorem waitEndsAfterTheCompletion : Obligations.WaitEndsAfterTheCompletion := by
  intro s rest inv live next
  cases pending : s.pend with
  | none =>
    refine ⟨1, _, [], by omega, run_succ (step_wait_idle live pending next) 0, rfl, rfl, pending, ?_, ?_, by simp,
      fun _ => sameBlock_refl s, nofun⟩
    · rw [List.append_nil]
      rfl
    · exact (statusWord_busy s).trans (by rw [pending]; rfl)
  | some p =>
    obtain ⟨reads, busy, polled⟩ := run_wait_busyLeft live pending next
    obtain ⟨u, done⟩ := inv.exists_completion pending
    have idle := done.pend_eq_none
    have completed := step_completion (s := { s with busyLeft := 0, observed := s.observed ++ reads })
      ((engineTurn_iff _).2 ⟨live, ⟨p, pending⟩, .inl rfl⟩) pending
      (done.with_busyLeft_observed 0 (s.observed ++ reads))
    have ended := step_wait_idle (s := { u with observed := s.observed ++ reads }) (done.line_eq.trans live) idle
      (done.input_eq.trans next)
    have run := (run_add polled 2).trans ((run_succ completed 1).trans (run_succ ended 0))
    refine ⟨s.busyLeft + 2, _, reads, le_rfl, run, rfl, done.line_eq, idle, rfl, ?_, busy, nofun, ?_⟩
    · exact (statusWord_busy u).trans (by rw [idle]; rfl)
    · rintro _ ⟨⟩
      exact ⟨u, complete_eq_next_iff.2 done, sameBlock_refl u⟩

/-- Settles O47: the acceptance of XFORM, the WAIT of O46 with XFORM's completion in it, and the read of DOUT. -/
theorem encodedByteIsReadBackAtThePort : Obligations.EncodedByteIsReadBackAtThePort := by
  intro s b g rest inv live rdy seeded next
  have grounds := accepted_xform_of_ready b rdy
  have issued := step_commandWrite live grounds next
  have accepted := (inv.of_sameBlock
    (t := { s with input := .wait :: .read .dout :: rest, busyLeft := s.busyLeft - 1 })
    (sameBlock_refl s)).accept (grounds.of_sameBlock (sameBlock_refl s))
  obtain ⟨n, t, before, -, waited, input, line, idle, observed, -, busy, -, completes⟩ :=
    waitEndsAfterTheCompletion _ (.read .dout :: rest) accepted live rfl
  obtain ⟨u, complete, same⟩ := completes (.xform b) rfl
  obtain ⟨phase, errcode, -, key, sb, gen, acc, dout⟩ := same
  obtain ⟨reads, -, -⟩ := readsAndOtherWritesHaveNoEffect
  have read := reads t .dout rest (line.trans live) (engineTurn_eq_false_of_pend idle) input
  cases complete_eq_next_iff.1 complete with
  | xform _ g' seeded' =>
    cases seeded.symm.trans seeded'
    have shown : t.dout = (s.acc.extractLsb' 24 8 ^^^ b).setWidth 32 := dout
    have run := (run_succ issued (n + 1)).trans ((run_add waited 1).trans (run_succ read 0))
    refine ⟨n + 2, _, before ++ [.value .status (readReg .status t)], run, rfl, ?_, ?_, phase, idle, errcode, key, sb,
      acc.trans (mul32_eq_mul _ _), gen, shown⟩
    · simp [observed, shown]
    · rintro o ho
      rcases List.mem_append.1 ho with ho | ho
      · obtain ⟨v, rfl, -⟩ := busy o ho
        exact ⟨v, rfl⟩
      · exact ⟨_, List.mem_singleton.1 ho⟩

end Sys2Proof.Proofs

/-! SUPPORT. The statements about the key schedule (40_key_schedule.md) and the place in the keystream, and the facts
they rest on: what KS has copied after each digest call, the rounds in closed form, and how a command is issued. -/

namespace Sys2Proof.Machine

/-! ## The digest chain (40_key_schedule.md R86) -/

/-- A digest call is made exactly while the blocks before it leave a part of SB uncovered (R82, R86). -/
theorem lt_digestCalls_iff (c : Params) (k : Nat) : k < digestCalls c ↔ k * c.digestLen < c.seedWidth := by
  have positive := c.digestLen_pos
  have next := Nat.succ_mul k c.digestLen
  rw [digestCalls, ← Nat.succ_le_iff, Nat.le_div_iff_mul_le positive]
  omega

theorem digestCalls_pos (c : Params) : 0 < digestCalls c :=
  (lt_digestCalls_iff c 0).2 (by simpa using c.seedWidth_pos)

theorem digestCalls_eq_one {c : Params} (covers : c.seedWidth ≤ c.digestLen) : digestCalls c = 1 := by
  have first := digestCalls_pos c
  have noSecond := mt (lt_digestCalls_iff c 1).1 (by omega)
  omega

/-- Where W is no multiple of D, one call more than the whole blocks is made (R85). -/
theorem digestCalls_of_partial {c : Params} (part : c.seedWidth % c.digestLen ≠ 0) :
    digestCalls c = c.seedWidth / c.digestLen + 1 := by
  have positive := c.digestLen_pos
  have split := Nat.div_add_mod' c.seedWidth c.digestLen
  have below := Nat.mod_lt c.seedWidth positive
  have called := (lt_digestCalls_iff c (c.seedWidth / c.digestLen)).2 (by omega)
  have last := mt (lt_digestCalls_iff c (c.seedWidth / c.digestLen + 1)).1 (by rw [Nat.succ_mul]; omega)
  omega

theorem digestInput_of_ne_zero (c : Params) (key : List Byte) {k : Nat} (later : k ≠ 0) :
    digestInput c key k = digestChain c key k := if_neg later

/-- The part of k + 1 blocks that fits in SB: k whole blocks, and the head of the block after them. -/
theorem take_digestChain_succ (c : Params) (key : List Byte) {k : Nat} (fits : k * c.digestLen ≤ c.seedWidth) :
    (digestChain c key (k + 1)).take c.seedWidth =
      digestChain c key k ++ (digest c (digestInput c key k)).take (c.seedWidth - k * c.digestLen) := by
  rw [digestChain_succ, List.take_append, digestChain_length, List.take_of_length_le (by simpa using fits)]

/-- The digest is a function of D and Digest alone among the parameters. -/
theorem digest_congr {c c' : Params} (len : c.digestLen = c'.digestLen) (byte : c.digestByte = c'.digestByte)
    (x : List Byte) : digest c x = digest c' x := by
  rw [digest, digest, len, byte]

theorem digestChain_congr {c c' : Params} (len : c.digestLen = c'.digestLen) (byte : c.digestByte = c'.digestByte)
    (key : List Byte) (k : Nat) : digestChain c key k = digestChain c' key k := by
  induction k with
  | zero => rfl
  | succ k ih => rw [digestChain_succ, digestChain_succ, digestInput, digestInput, ih, digest_congr len byte]

theorem digestInput_congr {c c' : Params} (len : c.digestLen = c'.digestLen) (byte : c.digestByte = c'.digestByte)
    (key : List Byte) (k : Nat) : digestInput c key k = digestInput c' key k := by
  rw [digestInput, digestInput, digestChain_congr len byte]

theorem digestCalls_congr {c c' : Params} (width : c.seedWidth = c'.seedWidth) (len : c.digestLen = c'.digestLen) :
    digestCalls c = digestCalls c' := by
  rw [digestCalls, digestCalls, width, len]

/-! ## What the key schedule has copied (40_key_schedule.md R82, R86) -/

/-- Where KS stands after `k` digest calls from the buffer `sb`: the first `off` bytes of SB are those of the chain, and
`rem` bytes are still to come. -/
structure ChainCopied (c : Params) (key : List Byte) (sb : Memory) (k off rem : Nat) (r : KsRun) : Prop where
  covered : off = min (k * c.digestLen) c.seedWidth
  remaining : off + rem = c.seedWidth
  canonical : Memory.wf r.sb
  bytes : r.sb.readBytes 0 off = (digestChain c key k).take c.seedWidth
  inputs : r.inputs = (List.range k).map (digestInput c key)
  outside : ∀ a, c.seedWidth ≤ a → r.sb.read a = sb.read a

section

variable {c : Params} {key : List Byte} {sb : Memory} {k off rem : Nat} {r : KsRun}

theorem chainCopied_zero (canonical : Memory.wf sb) : ChainCopied c key sb 0 0 c.seedWidth ⟨sb, []⟩ where
  covered := by simp
  remaining := Nat.zero_add _
  canonical := canonical
  bytes := rfl
  inputs := rfl
  outside _ _ := rfl

theorem ChainCopied.off_eq (h : ChainCopied c key sb k off rem r) (more : k < digestCalls c) :
    off = k * c.digestLen := by
  have short := (lt_digestCalls_iff c k).1 more
  have covered := h.covered
  omega

/-- Everything written so far is the whole chain, as long as calls are still to come. -/
theorem ChainCopied.readBytes_eq (h : ChainCopied c key sb k off rem r) (more : k < digestCalls c) :
    r.sb.readBytes 0 off = digestChain c key k := by
  have short := (lt_digestCalls_iff c k).1 more
  rw [h.bytes, List.take_of_length_le (by simpa using short.le)]

/-- Bytes are still to come exactly while calls are. -/
theorem ChainCopied.rem_eq_zero_iff (h : ChainCopied c key sb k off rem r) : rem = 0 ↔ digestCalls c ≤ k := by
  have calls := lt_digestCalls_iff c k
  have covered := h.covered
  have remaining := h.remaining
  omega

/-- One digest call and the copy of its block, as KS's first call and each turn of its loop make it. -/
theorem ChainCopied.copy {sb' : Memory} (h : ChainCopied c key sb k off rem r) (more : k < digestCalls c)
    (write : memWrite c r.sb off ((digest c (digestInput c key k)).take (min c.digestLen rem)) = some sb') :
    ChainCopied c key sb (k + 1) (off + min c.digestLen rem) (rem - min c.digestLen rem)
      ⟨sb', r.inputs ++ [digestInput c key k]⟩ := by
  have start := h.off_eq more
  have remaining := h.remaining
  have next := Nat.add_one_mul k c.digestLen
  obtain ⟨-, rfl⟩ := (memWrite_eq_some ..).1 write
  generalize block : (digest c (digestInput c key k)).take (min c.digestLen rem) = v
  have length : v.length = min c.digestLen rem := by simp [← block]
  have before : (r.sb.writeBytes off v).readBytes 0 off = digestChain c key k := by
    rw [← h.readBytes_eq more]
    exact Memory.readBytes_congr fun i _ hi => Memory.read_writeBytes_outside _ _ _ _ (by omega)
  have copied : (r.sb.writeBytes off v).readBytes off (min c.digestLen rem) = v := by
    rw [← length]
    exact Memory.readBytes_writeBytes h.canonical off v
  have head : (digest c (digestInput c key k)).take (c.seedWidth - k * c.digestLen) = v := by
    rw [← block, show c.seedWidth - k * c.digestLen = rem by omega, List.take_eq_take_min, digest_length, min_comm]
  exact
    { covered := by omega
      remaining := by omega
      canonical := Memory.writeBytes_wf h.canonical off v
      bytes := by
        rw [Memory.readBytes_add, Nat.zero_add, before, copied, take_digestChain_succ c key (by omega), head]
      inputs := by rw [h.inputs, List.range_succ, List.map_append, List.map_singleton]
      outside := fun a ha => (Memory.read_writeBytes_outside _ _ _ _ (by omega)).trans (h.outside a ha) }

/-- With no byte still to come, every call has been made. -/
theorem ChainCopied.finished (h : ChainCopied c key sb k off 0 r) (within : k ≤ digestCalls c) :
    ChainCopied c key sb (digestCalls c) c.seedWidth 0 r := by
  obtain rfl := Nat.le_antisymm within (h.rem_eq_zero_iff.1 rfl)
  obtain rfl : off = c.seedWidth := h.remaining
  exact h

/-- The loop, entered after the first call, ends with the last call made. -/
theorem ChainCopied.ksLoop {fuel : Nat} {r' : KsRun} (h : ChainCopied c key sb k off rem r) (later : k ≠ 0)
    (within : k ≤ digestCalls c) (run : ksLoop c fuel off rem r = some r') :
    ChainCopied c key sb (digestCalls c) c.seedWidth 0 r' := by
  induction fuel generalizing k off rem r with
  | zero =>
    simp only [Machine.ksLoop] at run
    split at run <;> cases run
    next ended => exact (ended ▸ h).finished within
  | succ fuel ih =>
    simp only [Machine.ksLoop] at run
    split at run
    next ended =>
      cases run
      exact (ended ▸ h).finished within
    next going =>
      have more : k < digestCalls c := Nat.lt_of_not_le (mt h.rem_eq_zero_iff.2 going)
      split at run
      · cases run
      next written read =>
        obtain ⟨-, rfl⟩ := (memRead_eq_some ..).1 read
        rw [h.readBytes_eq more, ← digestInput_of_ne_zero c key later] at run
        split at run
        · cases run
        next write => exact ih (h.copy more write) (Nat.succ_ne_zero k) more run

/-- KS leaves the first W bytes of the digest chain, by one call for each block of it. -/
theorem chainCopied_ks (canonical : Memory.wf sb) (run : ks c key sb = some r) :
    ChainCopied c key sb (digestCalls c) c.seedWidth 0 r := by
  have more := digestCalls_pos c
  unfold ks at run
  split at run
  · cases run
  next sb' write =>
    have first := (chainCopied_zero canonical).copy more write
    rw [Nat.zero_add (min _ _)] at first
    exact first.ksLoop Nat.one_ne_zero more run

/-- SB after KS is the closed form of the key schedule (R86). -/
theorem readBytes_ks (canonical : Memory.wf sb) (run : ks c key sb = some r) :
    r.sb.readBytes 0 c.seedWidth = seedBytes c key :=
  (chainCopied_ks canonical run).bytes

end

/-- Two canonical buffers with the same first W bytes that agree from W on are the same data. -/
theorem Memory.eq_of_readBytes_eq {m n : Memory} {W : Nat} (hm : Memory.wf m) (hn : Memory.wf n)
    (bytes : m.readBytes 0 W = n.readBytes 0 W) (outside : ∀ a, W ≤ a → m.read a = n.read a) : m = n := by
  refine Memory.eq_of_read_eq hm hn fun a => ?_
  rcases Nat.lt_or_ge a W with inside | beyond
  · have byte : (m.readBytes 0 W)[a]? = (n.readBytes 0 W)[a]? := by rw [bytes]
    simpa [inside, Memory.readBytes_getElem] using byte
  · exact outside a beyond

/-! ## The rounds in closed form (41_cipher_engine.md R97) -/

/-- PRIME's loop moves as many places on as it makes rounds. -/
theorem accRounds_place (c : Params) (g : GenState) (n k : Nat) :
    accRounds c n (accAfter c g k) (genAfter c g k) = (accAfter c g (k + n), genAfter c g (k + n)) := by
  induction n generalizing k with
  | zero => rfl
  | succ n ih => rw [accRounds_succ, accRound_place, ih, Nat.add_right_comm, Nat.add_assoc]

/-- A round of a state at a known place leads to the next place. -/
theorem accRound_of_atPosition {c : Params} {n : Nat} {s : State} {g : GenState} (place : atPosition c n s)
    (seeded : s.gen = some g) :
    accRound c s.acc g = (accAfter c (c.genSeed (seedWords c s.sb)) (n + 1),
      genAfter c (c.genSeed (seedWords c s.sb)) (n + 1)) := by
  obtain ⟨gen, acc⟩ := place
  obtain rfl := Option.some.inj (seeded.symm.trans gen)
  rw [acc, accRound_place]

/-! ## The place in the keystream, operation by operation -/

/-- In IDLE and FAULT a session has no place in a keystream. -/
theorem keystreamInv_of_not_filled (c : Params) {s : State} (out : s.phase.filled = false) : KeystreamInv c s where
  filled inside := by simp [out] at inside
  seeded inside := by simp [inside, Phase.filled] at out
  primed inside := by simp [inside, Phase.filled] at out
  streaming inside := by simp [inside, Phase.filled] at out

theorem KeystreamInv.of_sameBlock {c : Params} {s t : State} (inv : KeystreamInv c s) (same : sameBlock t s) :
    KeystreamInv c t := by
  obtain ⟨hph, -, -, hkey, hsb, hgen, hacc, -⟩ := same
  obtain ⟨filled, seeded, primed, streaming⟩ := inv
  unfold atPosition at primed streaming
  constructor <;> simp only [atPosition, hph, hkey, hsb, hgen, hacc]
  · exact filled
  · exact seeded
  · exact primed
  · exact streaming

/-- The place after one round more, from PRIMED or STREAMING (R97, R100). -/
theorem KeystreamInv.exists_place {c : Params} {s : State} (inv : KeystreamInv c s)
    (legal : s.phase = .primed ∨ s.phase = .streaming) : ∃ t, atPosition c (c.nPrime + t) s := by
  rcases legal with primed | streaming
  · exact ⟨0, inv.primed primed⟩
  · obtain ⟨t, -, place⟩ := inv.streaming streaming
    exact ⟨t, place⟩

theorem Completion.keystreamInv {c : Params} {s t : State} {p : Pending} (h : Completion c s p t)
    (inv : KeystreamInv c s) (canonical : Memory.wf s.sb) (legal : tableLegal p s.phase) : KeystreamInv c t := by
  cases h with
  | keyPush b =>
    have idle : s.phase = .idle := legal
    exact keystreamInv_of_not_filled c (by rw [finish_phase, keyAppend_phase, idle]; rfl)
  | expand r run => exact ⟨fun _ => readBytes_ks canonical run, nofun, nofun, nofun⟩
  | seed =>
    have filled := inv.filled (by rw [show s.phase = .expanded from legal]; rfl)
    exact ⟨fun _ => filled, fun _ => rfl, nofun, nofun⟩
  | prime g seeded =>
    have filled := inv.filled (by rw [show s.phase = .seeded from legal]; rfl)
    obtain rfl := Option.some.inj (seeded.symm.trans (inv.seeded legal))
    have rounds := accRounds_place c (c.genSeed (seedWords c s.sb)) c.nPrime 0
    rw [Nat.zero_add] at rounds
    obtain ⟨acc, gen⟩ := Prod.ext_iff.1 rounds
    exact ⟨fun _ => filled, nofun, fun _ => ⟨congrArg some gen, acc⟩, nofun⟩
  | xform b g seeded =>
    have filled := inv.filled (by rcases legal with hp | hp <;> rw [hp] <;> rfl)
    obtain ⟨n, place⟩ := inv.exists_place legal
    obtain ⟨acc, gen⟩ := Prod.ext_iff.1 (accRound_of_atPosition place seeded)
    exact ⟨fun _ => filled, nofun, nofun, fun _ => ⟨n + 1, Nat.le_add_left 1 n, congrArg some gen, acc⟩⟩

theorem BlockStep.keystreamInv {s t : State} (h : BlockStep s t) (machine : MachineInv Config.params s)
    (inv : s.line ≠ .unpowered → KeystreamInv Config.params s) (power : t.line ≠ .unpowered) :
    KeystreamInv Config.params t := by
  obtain ⟨store, block⟩ := machine
  cases h with
  | unchanged same dark => exact (inv (power ∘ dark)).of_sameBlock same
  | reset values =>
    obtain ⟨idle, -⟩ := values
    exact keystreamInv_of_not_filled _ (by rw [idle]; rfl)
  | raised e live same code => exact keystreamInv_of_not_filled _ rfl
  | accepted p live same grounds =>
    obtain ⟨filled, seeded, primed, streaming⟩ := (inv (ne_unpowered_of_running live)).of_sameBlock same
    exact ⟨filled, seeded, primed, streaming⟩
  | completed p turn pending done =>
    have lit := ne_unpowered_of_engineTurn turn
    exact done.keystreamInv (inv lit) store.sbCanonical ((block lit).tableLegal pending)
  | powerLost s' loses => exact absurd (losePower_line s') power

/-! ## A command and its faults at issue (42_control.md R105) -/

theorem exec_out_of_phase {p : Pending} {s : State} (notFault : s.phase ≠ .fault) (idle : s.pend = none)
    (illegal : ¬ tableLegal p s.phase) : exec p.command s = .next (raiseFault .order s) := by
  rw [exec_command, (issueCommand_eq_order_iff p notFault idle).2 illegal]

theorem exec_lateCheck {p : Pending} {s : State} {e : ErrCode} (notFault : s.phase ≠ .fault) (idle : s.pend = none)
    (legal : legalIn p s.phase = true) (late : lateCheck p s = some e) :
    exec p.command s = .next (raiseFault e s) := by
  simp [exec_command, issueCommand, notFault, idle, legal, late]

/-- The engine's step of a pending command is its completion (42_control.md R106). -/
theorem engineStep_of_completion {p : Pending} {s t : State} (pending : s.pend = some p)
    (done : Completion Config.params s p t) : engineStep s = .next t := by
  rw [engineStep, engineStepWith, pending]
  exact complete_eq_next_iff.2 done

theorem accepted_keyPush {s : State} (b : Byte) (idle : s.phase = .idle) (notBusy : s.pend = none)
    (room : s.key.length < Config.params.keyMax) : Accepted (.keyPush b) s where
  legal := (legalIn_iff (.keyPush b) s.phase).2 idle
  notBusy := notBusy
  notFault := by simp [idle]
  expandKey := nofun
  keyPushRoom _ _ := room

theorem accepted_expand {s : State} (idle : s.phase = .idle) (notBusy : s.pend = none) (key : s.key ≠ []) :
    Accepted .expand s where
  legal := (legalIn_iff .expand s.phase).2 idle
  notBusy := notBusy
  notFault := by simp [idle]
  expandKey _ := key
  keyPushRoom := nofun

end Sys2Proof.Machine

namespace Sys2Proof.Proofs

open Sys2Proof.Machine

/-! ## The statements about the key schedule and the place in the keystream -/

/-- Settles O4: only a completion moves the session, and each leads from its known place to the next. -/
theorem stepKeepsTheKeystreamInvariant : Obligations.StepKeepsTheKeystreamInvariant :=
  fun _ _ machine inv h power => (blockStep_of_step h).keystreamInv machine inv power

/-- Settles O30: KS has copied the whole chain, and ceil(W / D) is the least number of blocks that cover SB. -/
theorem keyScheduleIsTheDigestChain : Obligations.KeyScheduleIsTheDigestChain := by
  refine ⟨fun c key sb canonical => ?_, fun c key k later => ?_,
    fun c => ⟨seedWidth_le_digestCalls_mul c, fun m covers => ?_⟩, fun c width len => ?_⟩
  · obtain ⟨r, run⟩ := exists_ks c key sb
    have done := chainCopied_ks canonical run
    exact ⟨r, run, done.bytes, done.inputs, done.canonical, done.outside⟩
  · rw [digestInput_of_ne_zero c key (by omega), digestChain_length]
  · exact Nat.le_of_not_lt (mt (lt_digestCalls_iff c m).1 (by omega))
  · rw [digestCalls, width, len]

/-- Settles O31: the closed form fixes every byte inside [0, W), and outside a canonical buffer lists none. -/
theorem keyScheduleDependsOnKeyAndDigestAlone : Obligations.KeyScheduleDependsOnKeyAndDigestAlone := by
  intro c c' key sb sb' width len byte canonical canonical' inside inside'
  obtain ⟨r, run⟩ := exists_ks c key sb
  obtain ⟨r', run'⟩ := exists_ks c' key sb'
  have done := chainCopied_ks canonical run
  have done' := chainCopied_ks canonical' run'
  have calls := digestCalls_congr width len
  have inputs : r.inputs = r'.inputs := by
    rw [done.inputs, done'.inputs, calls]
    exact List.map_congr_left fun k _ => digestInput_congr len byte key k
  have buffer : r.sb = r'.sb := by
    refine Memory.eq_of_readBytes_eq (W := c.seedWidth) done.canonical done'.canonical ?_ fun a beyond => ?_
    · rw [done.bytes, width, done'.bytes, calls, digestChain_congr len byte]
    · have blank : sb.read a = blankByte := Memory.read_unlisted sb a fun x hx => ((inside x hx).trans_le beyond).ne
      have blank' : sb'.read a = blankByte :=
        Memory.read_unlisted sb' a fun x hx => ((inside' x hx).trans_le (width ▸ beyond)).ne
      rw [done.outside a beyond, done'.outside a (width ▸ beyond), blank, blank']
  rw [run, run', Option.some.injEq, KsRun.mk.injEq]
  exact ⟨buffer, inputs⟩

/-- Settles O32: the chain of one block. -/
theorem oneDigestCallWhereItCoversTheBuffer : Obligations.OneDigestCallWhereItCoversTheBuffer := by
  intro c key sb canonical covers
  obtain ⟨r, run⟩ := exists_ks c key sb
  have done := chainCopied_ks canonical run
  rw [digestCalls_eq_one covers] at done
  exact ⟨r, run, done.inputs, done.bytes⟩

/-- Settles O33: the last block of the chain is cut, and its input is what SB holds before it. -/
theorem lastDigestIsCopiedInPart : Obligations.LastDigestIsCopiedInPart := by
  intro c key sb canonical several part
  obtain ⟨r, run⟩ := exists_ks c key sb
  refine ⟨r, run, ?_⟩
  have split := Nat.div_add_mod' c.seedWidth c.digestLen
  have later : c.seedWidth / c.digestLen ≠ 0 := (Nat.div_pos several.le c.digestLen_pos).ne'
  have bytes := (chainCopied_ks canonical run).bytes
  rw [digestCalls_of_partial part, take_digestChain_succ c key (by omega), digestInput_of_ne_zero c key later] at bytes
  have whole := Memory.readBytes_add r.sb 0 (c.seedWidth / c.digestLen * c.digestLen) (c.seedWidth % c.digestLen)
  rw [split, bytes, Nat.zero_add] at whole
  obtain ⟨before, last⟩ := List.append_inj whole (by simp)
  obtain ⟨start, rest⟩ : c.seedWidth - c.seedWidth % c.digestLen = c.seedWidth / c.digestLen * c.digestLen ∧
      c.seedWidth - c.seedWidth / c.digestLen * c.digestLen = c.seedWidth % c.digestLen := by omega
  rw [start, ← before, ← last, rest]

/-- Settles O23: the acceptance, the completion, and the two faults at issue. -/
theorem keyPushAppendsItsByte : Obligations.KeyPushAppendsItsByte := by
  refine ⟨encode_keyPush, fun b s idle notBusy room => ?_, fun b s notFault notBusy other => ?_,
    fun b s idle notBusy full => ?_⟩
  · exact ⟨_, exec_of_accepted (accepted_keyPush b idle notBusy room), engineStep_of_completion rfl (.keyPush b)⟩
  · exact exec_out_of_phase (p := .keyPush b) notFault notBusy other
  · exact exec_lateCheck (p := .keyPush b) (by simp [idle]) notBusy ((legalIn_iff (.keyPush b) s.phase).2 idle)
      (by simp [lateCheck, keyPushCheck, full])

/-- Settles O24: the acceptance, the completion with what KS has copied, and the two faults at issue. -/
theorem expandFillsTheSeedBuffer : Obligations.ExpandFillsTheSeedBuffer := by
  refine ⟨rfl, fun s idle notBusy key canonical => ?_, fun s notFault notBusy other => ?_,
    fun s idle notBusy empty => ?_⟩
  · obtain ⟨r, run⟩ := exists_ks Config.params s.key s.sb
    have done := chainCopied_ks canonical run
    exact ⟨_, r.sb, exec_of_accepted (accepted_expand idle notBusy (by simpa using key)),
      engineStep_of_completion rfl (.expand r run), done.bytes, done.canonical, done.outside⟩
  · exact exec_out_of_phase (p := .expand) notFault notBusy other
  · exact exec_lateCheck (p := .expand) (by simp [idle]) notBusy ((legalIn_iff .expand s.phase).2 idle)
      (by simp [lateCheck, expandCheck, empty])

end Sys2Proof.Proofs

/-! SUPPORT. The statements about the cipher engine (41_cipher_engine.md), and the facts they rest on: a round as a
multiplication, the issue and completion of SEED, PRIME and XFORM, and the closed form of a transformed byte sequence. -/

namespace Sys2Proof.Machine

/-! ## A round (41_cipher_engine.md R92 to R94) -/

theorem ksByte_toNat (acc : Word) : (ksByte acc).toNat = acc.toNat / 2 ^ 24 := by
  have below : acc.toNat / 2 ^ 24 < 2 ^ 8 := Nat.div_lt_of_lt_mul acc.isLt
  rw [ksByte, BitVec.extractLsb'_toNat, Nat.shiftRight_eq_div_pow, Nat.mod_eq_of_lt below]

theorem accRound_fst (c : Params) (acc : Word) (g : GenState) :
    (accRound c acc g).1 = acc * ((c.genNext g).1 ||| 0x00000001) := mul32_eq_mul _ _

/-- An odd factor cancels modulo 2^32. -/
theorem mul32_oddMultiplier_injective (g : Word) :
    Function.Injective fun acc : Word => mul32 acc (oddMultiplier g) := by
  intro a b same
  have coprime : Nat.Coprime (2 ^ 32) (oddMultiplier g).toNat :=
    Nat.Coprime.pow_left 32 (Nat.coprime_two_left.2 (Nat.odd_iff.2 (oddMultiplier_odd g)))
  have products : a.toNat * (oddMultiplier g).toNat ≡ b.toNat * (oddMultiplier g).toNat [MOD 2 ^ 32] := by
    simpa [mul32, Nat.ModEq] using congrArg BitVec.toNat same
  exact BitVec.eq_of_toNat_eq (Nat.ModEq.eq_of_lt_of_lt (products.cancel_right_of_coprime coprime) a.isLt b.isLt)

/-- Bit 0 is forced to 1, so what it was has no effect. -/
theorem oddMultiplier_flip (g : Word) : oddMultiplier (g ^^^ 0x00000001) = oddMultiplier g := by
  ext k hk
  rw [oddMultiplier, oddMultiplier, BitVec.getElem_or, BitVec.getElem_or, BitVec.getElem_xor]
  cases (0x00000001#32)[k] <;> simp

theorem mul32_oddMultiplier_ones (acc : Word) :
    (mul32 acc (oddMultiplier 0xFFFFFFFF)).toNat = (2 ^ 32 - acc.toNat) % 2 ^ 32 := by
  have negative : mul32 acc (oddMultiplier 0xFFFFFFFF) = -acc := by
    rw [mul32_eq_mul, show oddMultiplier 0xFFFFFFFF = -1#32 by decide, BitVec.mul_neg, BitVec.mul_one]
  rw [negative, BitVec.toNat_neg]

/-! ## SEED, PRIME and XFORM, from the write to the completion -/

theorem ne_fault_of_tableLegal {p : Pending} {ph : Phase} (legal : tableLegal p ph) : ph ≠ .fault := by
  rintro rfl
  cases p <;> simp [tableLegal] at legal

/-- SEED, PRIME and XFORM are accepted on the phase table alone: they have no issue check of their own. -/
theorem accepted_of_tableLegal {p : Pending} {s : State} (legal : tableLegal p s.phase) (idle : s.pend = none)
    (noCheck : lateCheck p s = none) : Accepted p s where
  legal := (legalIn_iff_tableLegal p s.phase).2 legal
  notBusy := idle
  notFault := ne_fault_of_tableLegal legal
  expandKey := ((lateCheck_eq_none p s).1 noCheck).1
  keyPushRoom := ((lateCheck_eq_none p s).1 noCheck).2

/-- PRIME's rounds, which begin at ACC = 1, leave the product of all their multipliers (R97). -/
theorem accRounds_one (c : Params) (g : GenState) (n : Nat) :
    accRounds c n 0x00000001 g = (accAfter c g n, genAfter c g n) := by
  have rounds := accRounds_place c g n 0
  rwa [Nat.zero_add] at rounds

/-- PRIME's completion with its rounds in closed form. -/
theorem completion_prime_product {c : Params} {s : State} {g : GenState} (seeded : s.gen = some g) :
    Completion c s .prime (finish { s with
      acc := accAfter c g c.nPrime
      gen := some (genAfter c g c.nPrime)
      phase := .primed }) := by
  have done := Completion.prime (c := c) g seeded
  rwa [accRounds_one] at done

/-- XFORM's completion with its round as a product. -/
theorem completion_xform_product {c : Params} {s : State} {g : GenState} (b : Byte) (seeded : s.gen = some g) :
    Completion c s (.xform b) (finish { s with
      dout := zext32 (ksByte s.acc ^^^ b)
      acc := s.acc * ((c.genNext g).1 ||| 0x00000001)
      gen := some (c.genNext g).2
      phase := .streaming }) := by
  rw [← accRound_fst]
  exact .xform b g seeded

theorem runCommand_of_accepted {p : Pending} {s t : State} (grounds : Accepted p s)
    (done : Completion Config.params (accept Config.params p s) p t) : runCommand p.command s = .next t := by
  rw [runCommand, exec_of_accepted grounds]
  exact engineStep_of_completion rfl done

/-! ## The transformation of a byte sequence (R100 to R102) -/

/-- The bytes of `m`, each XORed with the keystream byte of its place, the first place `n` rounds after the seeding that
gave the generator `g`. -/
def streamBytes (c : Params) (g : GenState) (n : Nat) (m : List Byte) : List Byte :=
  m.mapIdx fun k b => b ^^^ ksByte (accAfter c g (n + k))

section

variable (c : Params) (g : GenState) (n : Nat)

@[simp] theorem streamBytes_nil : streamBytes c g n [] = [] := rfl

theorem streamBytes_cons (b : Byte) (m : List Byte) :
    streamBytes c g n (b :: m) = (b ^^^ ksByte (accAfter c g n)) :: streamBytes c g (n + 1) m := by
  simp only [streamBytes, List.mapIdx_cons, Nat.add_zero, Nat.add_right_comm, Nat.add_assoc]

@[simp] theorem streamBytes_length (m : List Byte) : (streamBytes c g n m).length = m.length := List.length_mapIdx

theorem streamBytes_getElem? (m : List Byte) (k : Nat) :
    (streamBytes c g n m)[k]? = m[k]?.map (· ^^^ ksByte (accAfter c g (n + k))) := List.getElem?_mapIdx

/-- A byte XORed twice with the keystream byte of its place is the byte again (R101). -/
theorem streamBytes_streamBytes (m : List Byte) : streamBytes c g n (streamBytes c g n m) = m := by
  induction m generalizing n with
  | nil => rfl
  | cons b m ih => rw [streamBytes_cons, streamBytes_cons, ih, BitVec.xor_assoc, BitVec.xor_self, BitVec.xor_zero]

/-- The XOR of input and output is the keystream, in which no input byte is left (R104). -/
theorem zipWith_xor_streamBytes (m : List Byte) :
    List.zipWith (· ^^^ ·) m (streamBytes c g n m) =
      (List.range m.length).map fun k => ksByte (accAfter c g (n + k)) := by
  refine List.ext_getElem (by simp) fun k _ _ => ?_
  simp [streamBytes]

end

/-- DOUT[7:0] is the byte DOUT was written with (R99). -/
theorem extractLsb'_zext32 (o : Byte) : (zext32 o).extractLsb' 0 8 = o := by
  ext k hk
  have inside : k < 32 := by omega
  simp [zext32, inside, BitVec.getLsbD_eq_getElem hk]

/-- One XFORM of a session at a known place: the output byte, and the session one place further on (R99, R100). -/
theorem runCommand_xform {n : Nat} {s : State} (b : Byte) (rdy : ready s) (place : atPosition Config.params n s) :
    ∃ t, runCommand (.xform b) s = .next t ∧ ready t ∧ t.sb = s.sb ∧ t.key = s.key ∧
      atPosition Config.params (n + 1) t ∧ t.dout = zext32 (b ^^^ ksByte s.acc) := by
  have seeded := place.1
  obtain ⟨acc, gen⟩ := Prod.ext_iff.1 (accRound_of_atPosition place seeded)
  exact ⟨_, runCommand_of_accepted (accepted_xform_of_ready b rdy) (.xform b _ seeded), ⟨.inr rfl, rfl⟩, rfl, rfl,
    ⟨congrArg some gen, acc⟩, congrArg zext32 (BitVec.xor_comm _ _)⟩

/-- A byte sequence transformed from a known place, in closed form (R100). -/
theorem transform_eq_streamBytes (m : List Byte) {n : Nat} {s : State} (rdy : ready s)
    (place : atPosition Config.params n s) :
    ∃ t, transform m s =
        some (streamBytes Config.params (Config.params.genSeed (seedWords Config.params s.sb)) n m, t) ∧
      ready t ∧ t.sb = s.sb ∧ t.key = s.key ∧ atPosition Config.params (n + m.length) t := by
  induction m generalizing n s with
  | nil => exact ⟨s, rfl, rdy, rfl, rfl, place⟩
  | cons b m ih =>
    obtain ⟨u, run, rdyU, sbU, keyU, placeU, shown⟩ := runCommand_xform b rdy place
    obtain ⟨t, rest, rdyT, sbT, keyT, placeT⟩ := ih rdyU placeU
    refine ⟨t, ?_, rdyT, sbT.trans sbU, keyT.trans keyU, ?_⟩
    · simp only [transform, run, rest, Option.map_some, readReg_dout, shown, extractLsb'_zext32, sbU, place.2,
        streamBytes_cons]
    · rwa [List.length_cons, Nat.add_comm m.length, ← Nat.add_assoc]

/-! ## The passphrase fixes the keystream (40_key_schedule.md R90, 41_cipher_engine.md R104) -/

theorem StoreInv.read_outside {c : Params} {s : State} (inv : StoreInv c s) {a : Nat} (beyond : c.seedWidth ≤ a) :
    s.sb.read a = blankByte :=
  Memory.read_unlisted s.sb a fun x listed => ((inv.sbInside x listed).trans_le beyond).ne

/-- Equal passphrases have left equal seed buffers, wherever both sessions have expanded theirs. -/
theorem sb_eq_of_key_eq {c : Params} {s s' : State} (store : StoreInv c s) (store' : StoreInv c s')
    (stream : KeystreamInv c s) (stream' : KeystreamInv c s') (filled : s.phase.filled = true)
    (filled' : s'.phase.filled = true) (key : s.key = s'.key) : s.sb = s'.sb := by
  refine Memory.eq_of_readBytes_eq (W := c.seedWidth) store.sbCanonical store'.sbCanonical ?_ fun a beyond => ?_
  · rw [stream.filled filled, stream'.filled filled', key]
  · rw [store.read_outside beyond, store'.read_outside beyond]

/-- Two sessions primed from the same passphrase transform every byte sequence alike, with one keystream. -/
theorem exists_shared_keystream {s s' : State} (inv : BlockInv Config.params s) (inv' : BlockInv Config.params s')
    (stream : KeystreamInv Config.params s) (stream' : KeystreamInv Config.params s')
    (rdy : s.phase = .primed ∧ s.pend = none) (rdy' : s'.phase = .primed ∧ s'.pend = none) (key : s.key = s'.key) :
    ∃ g, ∀ m, (∃ t, transform m s = some (streamBytes Config.params g Config.params.nPrime m, t)) ∧
      ∃ t', transform m s' = some (streamBytes Config.params g Config.params.nPrime m, t') := by
  obtain ⟨primed, idle⟩ := rdy
  obtain ⟨primed', idle'⟩ := rdy'
  have buffer : s.sb = s'.sb := sb_eq_of_key_eq inv.toStoreInv inv'.toStoreInv stream stream' (by rw [primed]; rfl)
    (by rw [primed']; rfl) key
  refine ⟨Config.params.genSeed (seedWords Config.params s.sb), fun m => ?_⟩
  obtain ⟨t, run, -⟩ := transform_eq_streamBytes m ⟨.inl primed, idle⟩ (stream.primed primed)
  obtain ⟨t', run', -⟩ := transform_eq_streamBytes m ⟨.inl primed', idle'⟩ (stream'.primed primed')
  exact ⟨⟨t, run⟩, t', buffer ▸ run'⟩

end Sys2Proof.Machine

namespace Sys2Proof.Proofs

open Sys2Proof.Machine

/-! ## The statements about the cipher engine -/

/-- Settles O22: the completion the invariant grants, and the row of the phase table it follows. -/
theorem completionNeverFaults : Obligations.CompletionNeverFaults := by
  intro s inv busy
  obtain ⟨p, pending⟩ := Option.ne_none_iff_exists'.1 busy
  obtain ⟨t, done⟩ := inv.exists_completion pending
  exact ⟨t, engineStep_of_completion pending done, done.pend_eq_none,
    done.phase_eq (inv.tableLegal pending) ▸ tableAfter_ne_fault p,
    done.errcode_eq.trans (inv.errcode_eq_none pending)⟩

/-- Settles O26: the acceptance, the completion with its rounds in closed form, and the fault at issue. -/
theorem primeMultipliesAllWarmUpWords : Obligations.PrimeMultipliesAllWarmUpWords := by
  refine ⟨rfl, fun s g seeded idle gen => ?_, fun s notFault idle other => ?_⟩
  · exact ⟨_, exec_of_accepted (accepted_of_tableLegal (p := .prime) seeded idle rfl),
      engineStep_of_completion rfl (completion_prime_product gen)⟩
  · exact exec_out_of_phase (p := .prime) notFault idle other

/-- Settles O37: R93 as the model writes it; an injective map of the finitely many words is a bijection. -/
theorem roundIsAnOddMultiplication : Obligations.RoundIsAnOddMultiplication := by
  refine ⟨fun c acc g => ⟨?_, rfl⟩, fun g => ?_⟩
  · rw [accRound_fst, BitVec.toNat_mul]
  · exact Finite.injective_iff_bijective.1 (mul32_oddMultiplier_injective g)

/-- Settles O39: the closed form of the transformed sequence, byte by byte. -/
theorem streamBytesComeFromTheirPlaces : Obligations.StreamBytesComeFromTheirPlaces := by
  intro s n m rdy place
  obtain ⟨t, run, after⟩ := transform_eq_streamBytes m rdy place
  refine ⟨_, t, run, streamBytes_length .., fun k b byte => ?_, after⟩
  rw [streamBytes_getElem?, byte, Option.map_some]

/-- Settles O40: equal passphrases give one keystream, and XOR with it twice is the identity. -/
theorem secondSessionDecryptsTheFirst : Obligations.SecondSessionDecryptsTheFirst := by
  intro s s' m inv stream inv' stream' primed idle primed' idle' key
  obtain ⟨g, transforms⟩ := exists_shared_keystream inv inv' stream stream' ⟨primed, idle⟩ ⟨primed', idle'⟩ key
  obtain ⟨⟨t, encrypted⟩, -⟩ := transforms m
  obtain ⟨-, t', decrypted⟩ := transforms (streamBytes Config.params g Config.params.nPrime m)
  rw [streamBytes_streamBytes] at decrypted
  exact ⟨_, t, t', encrypted, decrypted⟩

/-- Settles O41: the XOR of input and output is the keystream alone, and the two sessions share it. -/
theorem keystreamDependsOnThePassphraseAlone : Obligations.KeystreamDependsOnThePassphraseAlone := by
  intro s s' m m' inv stream inv' stream' primed idle primed' idle' key length
  obtain ⟨g, transforms⟩ := exists_shared_keystream inv inv' stream stream' ⟨primed, idle⟩ ⟨primed', idle'⟩ key
  obtain ⟨⟨t, run⟩, -⟩ := transforms m
  obtain ⟨-, t', run'⟩ := transforms m'
  refine ⟨_, _, t, t', run, run', ?_⟩
  rw [zipWith_xor_streamBytes, zipWith_xor_streamBytes, length]

/-- Settles O25: the acceptance, the completion, and the fault at issue. -/
theorem seedReplacesTheGenerator : Obligations.SeedReplacesTheGenerator := by
  refine ⟨rfl, fun s expanded idle => ?_, fun s notFault idle other => ?_⟩
  · exact ⟨_, exec_of_accepted (accepted_of_tableLegal (p := .seed) expanded idle rfl),
      engineStep_of_completion rfl .seed⟩
  · exact exec_out_of_phase (p := .seed) notFault idle other

/-- Settles O27: the acceptance, the completion with its round as a product, and the fault at issue. -/
theorem xformOutputsTheTransformedByte : Obligations.XformOutputsTheTransformedByte := by
  refine ⟨encode_xform, fun b s g legal idle gen => ?_, fun b s early idle => ?_⟩
  · exact ⟨_, exec_of_accepted (accepted_xform_of_ready b ⟨legal, idle⟩),
      engineStep_of_completion rfl (completion_xform_product b gen)⟩
  · have notFault : s.phase ≠ .fault := by rcases early with hp | hp | hp <;> simp [hp]
    have illegal : ¬ tableLegal (.xform b) s.phase := by rcases early with hp | hp | hp <;> simp [hp, tableLegal]
    exact exec_out_of_phase notFault idle illegal

/-- Settles O36: a 32-bit word has no bit above its top byte. -/
theorem keystreamByteIsTheTopByte : Obligations.KeystreamByteIsTheTopByte := ksByte_toNat

/-- Settles O38: the multipliers 1 and -1, and the fixed words by evaluation. -/
theorem roundCornerCases : Obligations.RoundCornerCases := by
  have one (acc : Word) : mul32 acc 0x00000001 = acc := (mul32_eq_mul _ _).trans (BitVec.mul_one acc)
  exact ⟨fun acc => ⟨one acc, one acc⟩, mul32_oddMultiplier_ones, oddMultiplier_flip, by decide, by decide, by decide⟩

end Sys2Proof.Proofs

/-! SUPPORT. The statements about the issue procedure and the soft reset (42_control.md), and the facts they rest on: what
a write to CMD does with each kind of word, and which words have SRST's OPCODE. -/

namespace Sys2Proof.Machine

/-! ## A write of a word to CMD (42_control.md R105) -/

/-- In FAULT every word but SRST's is ignored (60_exceptions.md R115). -/
theorem issueWord_of_fault {w : Word} {s : State} (notSrst : decode w ≠ .command .srst) (fault : s.phase = .fault) :
    issueWord w s = .next s := by
  obtain ⟨t, h⟩ := issueWord_next w s
  rcases issueWord_cases h with ⟨-, rfl, -⟩ | ⟨e, -, notFault, -⟩ | ⟨srst, -⟩ | ⟨p, -, grounds, -⟩
  · exact h
  · exact absurd fault notFault
  · exact absurd srst notSrst
  · exact absurd fault grounds.notFault

/-- Outside FAULT the test of PEND comes before everything else the issue procedure looks at, the word's meaning too. -/
theorem issueWord_of_busy {w : Word} {s : State} (notSrst : decode w ≠ .command .srst) (notFault : s.phase ≠ .fault)
    (busy : s.pend ≠ none) : issueWord w s = .next (raiseFault .cmdWhileBusy s) := by
  cases hd : decode w with
  | command i =>
    rcases Instr.eq_srst_or_command i with rfl | ⟨p, rfl⟩
    · exact absurd hd notSrst
    · simp [issueWord_of_decode hd, exec_command, issueCommand, notFault, busy]
  | illegal why => simp [issueWord, hd, issueIllegal, notFault, busy]

theorem issueWord_of_illegal {w : Word} {s : State} {why : Illegal} (illegal : decode w = .illegal why)
    (notFault : s.phase ≠ .fault) (idle : s.pend = none) : issueWord w s = .next (raiseFault .illegalCmd s) := by
  simp [issueWord, illegal, issueIllegal, notFault, idle]

/-! ## SRST (42_control.md R107) -/

/-- A reset block is left as it is by another reset. -/
theorem resetBlock_resetBlock (s : State) : resetBlock (resetBlock s) = resetBlock s := rfl

/-- No other command has SRST's OPCODE (30_encoding.md R63). -/
theorem eq_srst_of_opcode {i : Instr} (h : i.opcode = 0xFF) : i = .srst := by
  cases i with
  | srst => rfl
  | _ => simp [Instr.opcode] at h

/-- The one legal word with OPCODE 0xFF is SRST's. -/
theorem eq_encode_srst_of_decode {w : Word} {i : Instr} (h : decode w = .command i)
    (opcode : w.extractLsb' 24 8 = 0xFF) : w = encode .srst := by
  have row : w.extractLsb' 24 8 = i.opcode := congrArg Fields.opcode (ofWord_of_decode h)
  obtain rfl := eq_srst_of_opcode (row.symm.trans opcode)
  exact (decode_eq_command_iff w .srst).1 h

end Sys2Proof.Machine

namespace Sys2Proof.Proofs

open Sys2Proof.Machine

/-! ## The statements about the issue procedure and the soft reset -/

/-- Settles O17, check by check in the order of R105. -/
theorem cmdWriteFollowsTheIssueProcedure : Obligations.CmdWriteFollowsTheIssueProcedure := by
  refine fun w s => ⟨fun srst => ?_, issueWord_of_fault, issueWord_of_busy, fun why => issueWord_of_illegal,
    fun p command notFault idle illegal => ?_, fun command phase idle empty => ?_,
    fun b command phase idle full => ?_, fun p command legal idle key room => ?_⟩
  · exact ⟨resetBlock s, issueWord_of_decode srst s, blockReset_resetBlock s, rfl, rfl, rfl, rfl, rfl⟩
  · exact (issueWord_of_decode command s).trans (exec_out_of_phase notFault idle illegal)
  · obtain ⟨-, -, -, keyEmpty⟩ := expandFillsTheSeedBuffer
    exact (issueWord_of_decode command s).trans (keyEmpty s phase idle empty)
  · obtain ⟨-, -, -, keyOverflow⟩ := keyPushAppendsItsByte
    exact (issueWord_of_decode command s).trans (keyOverflow b s phase idle full)
  · have passed : lateCheck p s = none := (lateCheck_eq_none p s).2 ⟨by simpa using key, room⟩
    exact ⟨_, (issueWord_of_decode command s).trans (exec_of_accepted (accepted_of_tableLegal legal idle passed))⟩

/-- Settles O28: the row of OPCODE 0xFF in the map, and the block reset at the write. -/
theorem srstResetsTheWholeBlock : Obligations.SrstResetsTheWholeBlock := by
  refine ⟨rfl, fun w opcode other => ?_, fun s => ?_⟩
  · cases hd : decode w with
    | command i => exact absurd (eq_encode_srst_of_decode hd opcode) other
    | illegal why => exact ⟨why, rfl⟩
  · obtain ⟨-, -, registers⟩ := resetValuesOfTheBlock
    have values := blockReset_resetBlock s
    exact ⟨resetBlock s, rfl, values, rfl, rfl, rfl, rfl, rfl, rfl, congrArg Host.Outcome.next (resetBlock_resetBlock s),
      engineTurn_eq_false_of_pend rfl, registers _ values⟩

end Sys2Proof.Proofs

/-! SUPPORT. The statements about FAULT and the loss of power (60_exceptions.md), and the facts they rest on: what the
assertion of the reset input and a loss of power do in the host's turn, and what each input does to a block without
power. -/

namespace Sys2Proof.Machine

/-! ## The reset input and the power (60_exceptions.md R123, 70_reset_and_hazards.md R124) -/

theorem step_resetAssert {s : State} {rest : List HostInput} (turn : engineTurn s = false)
    (next : s.input = .resetAssert :: rest) :
    step s = .next (assertReset { s with input := rest, busyLeft := s.busyLeft - 1 }) := by
  rw [step_host turn, hostTurn_cons next, takeInput]

theorem step_powerLoss {s : State} {rest : List HostInput} (turn : engineTurn s = false)
    (next : s.input = .powerLoss :: rest) :
    step s = .next (losePower { s with input := rest, busyLeft := s.busyLeft - 1 }) := by
  rw [step_host turn, hostTurn_cons next, takeInput]

/-- The free values a loss of power leaves are picked by the number of losses before it, and by nothing the block held. -/
theorem sameBlock_losePower {s s' : State} (losses : s.powerLosses = s'.powerLosses) :
    sameBlock (losePower s) (losePower s') := by
  simp [sameBlock, losses]

/-! ## A block without power (60_exceptions.md R123) -/

theorem engineTurn_eq_false_of_unpowered {s : State} (dark : s.line = .unpowered) : engineTurn s = false := by
  simp [engineTurn, dark]

theorem atPort_unpowered {s : State} (dark : s.line = .unpowered) (served : Host.Outcome State Fault Refusal) :
    atPort s served = .refused .noResetSincePowerUp := by
  rw [atPort, dark]

/-- Every kind of access goes through the port. -/
theorem takeInput_unpowered {e : HostInput} {s : State} (dark : s.line = .unpowered) (access : e.isAccess = true) :
    takeInput e s = .refused .noResetSincePowerUp := by
  cases e with
  | resetAssert | resetRelease | powerLoss => cases access
  | _ => exact atPort_unpowered dark _

theorem releaseReset_unpowered {s : State} (dark : s.line = .unpowered) : releaseReset s = s := by
  simp [releaseReset, dark]

/-- Of the inputs that are no access, only the assertion of the reset input changes a dark line. -/
theorem takeInput_unpowered_line {e : HostInput} {s t : State} (dark : s.line = .unpowered) (other : e ≠ .resetAssert)
    (h : takeInput e s = .next t) : t.line = .unpowered := by
  cases e with
  | resetAssert => exact absurd rfl other
  | resetRelease =>
    rw [takeInput, releaseReset_unpowered dark] at h
    cases h
    exact dark
  | powerLoss => cases h; exact losePower_line s
  | _ => cases (takeInput_unpowered dark rfl).symm.trans h

end Sys2Proof.Machine

namespace Sys2Proof.Proofs

open Sys2Proof.Machine

/-! ## The statements about FAULT and the loss of power -/

/-- Settles O20: nothing pending leaves the host's turn, in which a word written to CMD is SRST's or is ignored. -/
theorem onlySrstAndHardResetLeaveFault : Obligations.OnlySrstAndHardResetLeaveFault := by
  intro s t fault idle h
  rcases step_cases h with ⟨-, p, pending, -⟩ | ⟨-, same⟩ | ⟨-, e, rest, w, s', next, cmd, -, rfl, issue⟩ |
      ⟨-, rest, next, rfl⟩ | ⟨turn, rest, next, rfl⟩
  · simp [idle] at pending
  · exact .inl same
  · by_cases srst : decode w = .command .srst
    · cases (issueWord_of_decode srst _).symm.trans issue
      exact .inr (.inl ⟨blockReset_resetBlock _, .inl ⟨e, rest, w, next, cmd, srst⟩⟩)
    · rw [issueWord_of_fault srst (by exact fault)] at issue
      cases issue
      exact .inl (sameBlock_refl s)
  · exact .inr (.inl ⟨blockReset_assertReset _, .inr ⟨rest, next⟩⟩)
  · exact .inr (.inr ⟨⟨turn, rest, next⟩, losePower_line _⟩)

/-- Settles O54: both steps are `losePower`, which reads the number of losses and none of the eight pieces. -/
theorem powerLossRetainsNothing : Obligations.PowerLossRetainsNothing := by
  rintro s s' t t' ⟨turn, rest, next⟩ ⟨turn', rest', next'⟩ losses h h'
  cases (step_powerLoss turn next).symm.trans h
  cases (step_powerLoss turn' next').symm.trans h'
  exact sameBlock_losePower losses

/-- Settles O19: a write to CMD is the issue of its word. -/
theorem faultIgnoresEveryWordButSrst : Obligations.FaultIgnoresEveryWordButSrst :=
  fun _ _ fault notSrst => issueWord_of_fault notSrst fault

/-- Settles O49: without power the turn is always the host's, so each clause is what its next input does. -/
theorem powerLossRequiresAHardReset : Obligations.PowerLossRequiresAHardReset := by
  refine ⟨fun s rest turn next => ⟨_, step_powerLoss turn next, rfl, rfl⟩, fun s e rest dark next access => ?_,
    fun s t dark noReset h => ?_, fun s rest dark next => ?_⟩
  · rw [step_host (engineTurn_eq_false_of_unpowered dark), hostTurn_cons next]
    exact takeInput_unpowered dark access
  · rw [step_host (engineTurn_eq_false_of_unpowered dark)] at h
    cases next : s.input with
    | nil =>
      cases (hostTurn_nil next).symm.trans h
      exact dark
    | cons e rest =>
      have other : e ≠ .resetAssert := by
        rintro rfl
        exact noReset rest next
      rw [hostTurn_cons next] at h
      exact takeInput_unpowered_line (by exact dark) other h
  · exact ⟨_, step_resetAssert (engineTurn_eq_false_of_unpowered dark) next, blockReset_assertReset _, rfl⟩

end Sys2Proof.Proofs

/-! SUPPORT. The statement about the reset input (70_reset_and_hazards.md), and the facts it rests on: what each input does
to a block held in reset. -/

namespace Sys2Proof.Machine

/-! ## A block in reset (70_reset_and_hazards.md R124) -/

theorem engineTurn_eq_false_of_inReset {s : State} (held : s.line = .inReset) : engineTurn s = false := by
  simp [engineTurn, held]

theorem atPort_inReset {s : State} (held : s.line = .inReset) (served : Host.Outcome State Fault Refusal) :
    atPort s served = .next { s with observed := s.observed ++ [.notAccepted] } := by
  rw [atPort, held]

/-- Every kind of access goes through the port, so each is lost alike. -/
theorem takeInput_inReset {e : HostInput} {s : State} (held : s.line = .inReset) (access : e.isAccess = true) :
    takeInput e s = .next { s with observed := s.observed ++ [.notAccepted] } := by
  cases e with
  | resetAssert | resetRelease | powerLoss => cases access
  | _ => exact atPort_inReset held _

theorem releaseReset_inReset {s : State} (held : s.line = .inReset) : releaseReset s = { s with line := .running } :=
  if_pos held

/-- In reset the engine has no turn: the step is what the host's next input does. -/
theorem step_inReset {s : State} {e : HostInput} {rest : List HostInput} (held : s.line = .inReset)
    (next : s.input = e :: rest) :
    step s = takeInput e { s with input := rest, busyLeft := s.busyLeft - 1 } :=
  (step_host (engineTurn_eq_false_of_inReset held)).trans (hostTurn_cons next)

end Sys2Proof.Machine

namespace Sys2Proof.Proofs

open Sys2Proof.Machine

/-! ## The statement about the reset input -/

/-- Settles O48: the assertion resets the block, an access in reset is lost at the port, and the release moves the line
alone. -/
theorem hardResetInput : Obligations.HardResetInput := by
  refine ⟨fun s rest turn next => ?_, fun s e rest held next access => ?_, fun s rest held next => ?_⟩
  · exact ⟨_, step_resetAssert turn next, blockReset_assertReset _, rfl, rfl, rfl⟩
  · rw [step_inReset held next]
    exact takeInput_inReset held access
  · rw [step_inReset held next, takeInput, releaseReset_inReset (by exact held)]

end Sys2Proof.Proofs
